-- ==== Sys2Proof/Word.lean ====
section
/-! DEFINITION. The machine's bit-vector types (00_scope.md R8, R10, R11). -/

namespace Sys2Proof

/-- A Word: every register, memory cell, stack slot and instruction (00_scope.md R8 `WORD_WIDTH`, R11). -/
abbrev Word := BitVec 16

/-- An address or operand field: 0 to 2^12 - 1 (00_scope.md R8 `ADDR_WIDTH`, R11). -/
abbrev Addr := BitVec 12

/-- An opcode (00_scope.md R8 `OPCODE_WIDTH`). -/
abbrev Opcode := BitVec 4

/-- A counter of the status block (00_scope.md R8 `COUNTER_WIDTH`). -/
abbrev Count := BitVec 32

end Sys2Proof
end

