-- ==== Sys2Proof/Config.lean ====
section
/-! DEFINITION. The parameters of the CORE with the values this hardware takes (00_scope.md R8). R9 makes
the unaudited literals constants of their own, so that a corrected literal changes only this file (log 9).
The spec leaves no value open, so no opaque constant stands here. -/

namespace Sys2Proof.Config

/-- `MEM_WORDS` (00_scope.md R8): addresses 0x000 to 0xFFF. UNVERIFIED literal (log 9). -/
def memWords : Nat := 4096

/-- `STACK_WORDS` (00_scope.md R8): slots 0x000 to 0x3FF. UNVERIFIED literal (log 9). -/
def stackWords : Nat := 1024

/-- `FRAME_WORDS` (00_scope.md R8): the Words one JUMP_TO_SUBROUT pushes. -/
def frameWords : Nat := 4

/-- `MAX_NESTING` (00_scope.md R8): frames the stack can hold. -/
def maxNesting : Nat := stackWords / frameWords

/-- `INSPECT_LO` (00_scope.md R8). UNVERIFIED literal (log 9). -/
def inspectLo : Nat := 0x940

/-- `INSPECT_HI` (00_scope.md R8). UNVERIFIED literal (log 9). -/
def inspectHi : Nat := 0x942

/-- What a memory cell or stack slot holds at reset (10_state.md R49), hence what an address that the
canonical form does not list reads as (log 1, log 13). -/
def resetWord : Word := 0x0000#16

end Sys2Proof.Config
end

