-- ==== Sys2Proof/Syntax.lean ====
section
/-! DEFINITION. The instruction set: one constructor per row of the opcode table (30_encoding.md R76).
Every constructor carries its 12-bit field, the unused ones too, so that encoding gives back the word that was
decoded (30_encoding.md R74); what the field means is 30_encoding.md R75. DESIGN CHOICE (log 7). -/

namespace Sys2Proof

/-- The 13 instructions of 30_encoding.md R76, in the table's order. -/
inductive Instr where
  /-- LOAD_AC_MEM (41_transfer.md R104). -/
  | loadAcMem (address : Addr)
  /-- STORE_AC_MEM (41_transfer.md R105). -/
  | storeAcMem (address : Addr)
  /-- LOAD_AC_REG (41_transfer.md R106). -/
  | loadAcReg (unused : Addr)
  /-- STORE_AC_REG (41_transfer.md R107). -/
  | storeAcReg (unused : Addr)
  /-- ADD_AC_MEM (42_arithmetic.md R109). -/
  | addAcMem (address : Addr)
  /-- LOAD_REG_OPERAND (41_transfer.md R108). -/
  | loadRegOperand (imm : Addr)
  /-- ADD_AC_REG (42_arithmetic.md R110). -/
  | addAcReg (unused : Addr)
  /-- MULT_AC_REG (42_arithmetic.md R111). -/
  | multAcReg (unused : Addr)
  /-- SUBT_AC_REG (42_arithmetic.md R112). -/
  | subtAcReg (unused : Addr)
  /-- DIV_AC_REG (42_arithmetic.md R113). -/
  | divAcReg (unused : Addr)
  /-- JUMP_TO_SUBROUT (43_control.md R120). -/
  | jumpToSubrout (target : Addr)
  /-- RET_FRM_SUBROUT (43_control.md R122). -/
  | retFrmSubrout (unused : Addr)
  /-- HALT (43_control.md R124). -/
  | halt (unused : Addr)
  deriving DecidableEq, Repr

/-- The 12-bit field of an instruction, used or not (30_encoding.md R72). -/
def Instr.operand : Instr → Addr
  | .loadAcMem a | .storeAcMem a | .loadAcReg a | .storeAcReg a | .addAcMem a | .loadRegOperand a
  | .addAcReg a | .multAcReg a | .subtAcReg a | .divAcReg a | .jumpToSubrout a | .retFrmSubrout a
  | .halt a => a

end Sys2Proof
end

