-- ==== Sys2Proof/WellFormed.lean ====
section
/-! DEFINITION. The range checks of the spec on unbounded numbers: a 12-bit operand or address
(30_encoding.md R84, 70_reset_and_hazards.md R151) and a 16-bit value (R85, R151). An `Instr` holds its field
as 12 bits, so every `Instr` passes its check (Laws/PerInstr.lean proves it). -/

namespace Sys2Proof

/-- An address or operand is 0 to 0xFFF (30_encoding.md R84; 70_reset_and_hazards.md R151). -/
def addressInRange (n : Nat) : Bool := decide (n < 2 ^ 12)

/-- A Word is 0 to 0xFFFF (00_scope.md R11; 30_encoding.md R85; 70_reset_and_hazards.md R151). -/
def wordInRange (n : Nat) : Bool := decide (n < 2 ^ 16)

/-- An instruction is well formed when its field is an operand the encoding admits (30_encoding.md R74, R84). -/
def Instr.wellFormed (i : Instr) : Bool := addressInRange i.operand.toNat

end Sys2Proof
end

