-- ==== Sys2Proof/Decode.lean ====
section
/-! DEFINITION. Decoding and encoding of the one format OA (30_encoding.md R71 to R74, R76, R79, R82). -/

namespace Sys2Proof

/-- `decode_opcode(w) = w[15:12]` (30_encoding.md R73). -/
def decodeOpcode (w : Word) : Opcode := w.extractLsb' 12 4

/-- `decode_address(w) = w[11:0]` (30_encoding.md R73). -/
def decodeAddress (w : Word) : Addr := w.extractLsb' 0 12

/-- The decoder's `valid` output (10_state.md R43): the opcode is none of the illegal 0x0, 0xD, 0xE
(30_encoding.md R79, R82). -/
def validOpcode (o : Opcode) : Bool := o != 0x0#4 && o != 0xD#4 && o != 0xE#4

/-- What a Word decodes to (30_encoding.md R82): one of the 13 instructions, or an illegal opcode by its number. -/
inductive Decoded where
  /-- One of the 13 instructions. -/
  | instr (i : Instr)
  /-- Opcode 0x0, 0xD or 0xE (30_encoding.md R79). -/
  | unrecognizedOpcode (opcode : Opcode)
  deriving DecidableEq, Repr

/-- The opcode table (30_encoding.md R76), selected by the opcode alone (R78, R82). -/
def decodeFields (o : Opcode) (a : Addr) : Decoded :=
  match o.toNat with
  | 0x1 => .instr (.loadAcMem a)
  | 0x2 => .instr (.storeAcMem a)
  | 0x3 => .instr (.loadAcReg a)
  | 0x4 => .instr (.storeAcReg a)
  | 0x5 => .instr (.addAcMem a)
  | 0x6 => .instr (.loadRegOperand a)
  | 0x7 => .instr (.addAcReg a)
  | 0x8 => .instr (.multAcReg a)
  | 0x9 => .instr (.subtAcReg a)
  | 0xA => .instr (.divAcReg a)
  | 0xB => .instr (.jumpToSubrout a)
  | 0xC => .instr (.retFrmSubrout a)
  | 0xF => .instr (.halt a)
  | _ => .unrecognizedOpcode o

/-- Decoding is total on every Word (30_encoding.md R73, R82). -/
def decode (w : Word) : Decoded := decodeFields (decodeOpcode w) (decodeAddress w)

/-- `encode(opcode, address) = (opcode << 12) | address` (30_encoding.md R74). -/
def encodeFields (o : Opcode) (a : Addr) : Word := (o.setWidth 16 <<< 12) ||| a.setWidth 16

/-- The opcode of each instruction (30_encoding.md R76). -/
def Instr.opcode : Instr → Opcode
  | .loadAcMem _ => 0x1#4
  | .storeAcMem _ => 0x2#4
  | .loadAcReg _ => 0x3#4
  | .storeAcReg _ => 0x4#4
  | .addAcMem _ => 0x5#4
  | .loadRegOperand _ => 0x6#4
  | .addAcReg _ => 0x7#4
  | .multAcReg _ => 0x8#4
  | .subtAcReg _ => 0x9#4
  | .divAcReg _ => 0xA#4
  | .jumpToSubrout _ => 0xB#4
  | .retFrmSubrout _ => 0xC#4
  | .halt _ => 0xF#4

/-- The Word of an instruction (30_encoding.md R74, R76). -/
def encode (i : Instr) : Word := encodeFields i.opcode i.operand

/-- The instruction the decoder reads from an instruction whose bits are `w`, numbered as
spec/opcode_table.json numbers them; every row has 16 bits, the whole Word, and bits above `nbits` are 0. -/
def decodeTableWord (nbits w : Nat) : Option Instr :=
  match decode (BitVec.ofNat 16 (w % 2 ^ nbits)) with
  | .instr i => some i
  | .unrecognizedOpcode _ => none

end Sys2Proof
end

