-- ==== Sys2Proof/Machine/Alu.lean ====
section
/-! DEFINITION. The unsigned 16-bit arithmetic of alu_dispatch (10_state.md R47; 42_arithmetic.md R114 to R117):
the exact result over the naturals or integers, narrowed at the end. -/

namespace Sys2Proof.Machine

/-- `(a + b) mod 2^16` (42_arithmetic.md R109, R110, R114). -/
def addWords (a b : Word) : Word := BitVec.ofNat 16 (a.toNat + b.toNat)

/-- `(a * b) mod 2^16`, the low 16 bits of the 32-bit product (42_arithmetic.md R111, R116). -/
def multWords (a b : Word) : Word := BitVec.ofNat 16 (a.toNat * b.toNat)

/-- `(a - b) mod 2^16` (42_arithmetic.md R112, R114). -/
def subtWords (a b : Word) : Word := BitVec.ofInt 16 ((a.toNat : Int) - (b.toNat : Int))

/-- `a div b`, unsigned and rounded down, for b > 0 (42_arithmetic.md R113, R117). The caller has ruled b = 0 out. -/
def divWords (a b : Word) : Word := BitVec.ofNat 16 (a.toNat / b.toNat)

end Sys2Proof.Machine
end

