-- ==== Sys2Proof/Machine/State.lean ====
section
/-! DEFINITION. The machine's state, whole (10_state.md R51), as plain data, and the state after reset (R49). -/

namespace Sys2Proof.Machine

/-- `run_state` (10_state.md R38). Its codes are `RunState.code` in Ops.lean. -/
inductive RunState where
  /-- Between reset and `run()`; the host may load. -/
  | idle
  /-- Steps exist only here (40_execution_cycle.md R89). -/
  | running
  /-- Stopped by HALT; terminal. -/
  | halted
  /-- Stopped by a fatal condition; terminal. -/
  | faulted
  deriving DecidableEq, Repr

/-- `fault_cause` (10_state.md R39; 60_exceptions.md R128). Its codes are `FaultCause.code` in Ops.lean. -/
inductive FaultCause where
  /-- NONE: no fault recorded. -/
  | noFault
  /-- Executing a Word with opcode 0x0, 0xD or 0xE (60_exceptions.md R129). -/
  | unrecognizedOpcode
  /-- DIV_AC_REG with GR = 0 (60_exceptions.md R130). -/
  | divisionByZero
  /-- JUMP_TO_SUBROUT with the stack full (60_exceptions.md R131). -/
  | stackOverflow
  /-- RET_FRM_SUBROUT with the stack empty (60_exceptions.md R132). -/
  | stackUnderflow
  /-- A fetch with PC >= 0x1000 (60_exceptions.md R133). -/
  | fetchOutOfRange
  deriving DecidableEq, Repr

/-- One stored Word and its address (memory) or slot number (stack). The Word is the smallest unit there is
(20_memory.md R55), so a cell holds a Word, not a byte: DEDUCED (log 1). -/
abbrev Cell := Nat × Word

/-- A store in canonical form: addresses strictly rising, no entry equal to `Config.resetWord`, which is what
an unlisted address reads as (log 1). The form is `Cells.wf`, in Cells.lean. -/
abbrev Cells := List Cell

/-- The complete machine state (10_state.md R51). Nothing else influences a step. -/
structure State where
  /-- AC, the accumulator (10_state.md R21). -/
  ac : Word
  /-- IR, the most recently fetched instruction (10_state.md R22). -/
  ir : Word
  /-- PC, the address of the next instruction to fetch, a full Word (10_state.md R23). -/
  pc : Word
  /-- GR, the general register (10_state.md R24). -/
  gr : Word
  /-- The memory array (10_state.md R27). -/
  mem : Cells
  /-- The execution stack's slots (10_state.md R30, R32); a popped slot keeps its Word (R34). -/
  slot : Cells
  /-- The number of occupied slots (10_state.md R30). -/
  depth : Nat
  /-- `instr_count` (10_state.md R36). -/
  instrCount : Count
  /-- `call_count` (10_state.md R37). -/
  callCount : Count
  /-- `run_state` (10_state.md R38). -/
  runState : RunState
  /-- `fault_cause` (10_state.md R39). -/
  faultCause : FaultCause
  /-- `fault_pc` (10_state.md R39). -/
  faultPc : Word
  /-- `fault_ir` (10_state.md R39). -/
  faultIr : Word
  deriving DecidableEq, Repr

/-- The stops of a step that is no step: 40_execution_cycle.md R98 gives a core that is not RUNNING no step.
The fatal conditions of the program are NOT here: each is a next state in FAULTED (log 5). -/
inductive Fault where
  /-- `step` on an IDLE core, which only the host's `run()` starts. Safe: the spec gives no step here (log 3). -/
  | idle
  /-- `step` on a HALTED core, which is terminal. Safe: the spec gives no step here (log 3). -/
  | halted
  /-- `step` on a FAULTED core, which is terminal. Safe: the spec gives no step here (log 3). -/
  | faulted
  deriving DecidableEq, Repr

/-- Why an instruction has no meaning in this model. -/
inductive Refusal where
  /-- An arm of exec without a meaning. Raised by no arm: every instruction has its meaning. Safe. -/
  | notModelled (mnemonic : String)
  deriving DecidableEq, Repr

/-- The state right after reset: every value of the table of 10_state.md R49 (log 13). -/
def State.reset : State where
  ac := 0x0000#16
  ir := 0x0000#16
  pc := 0x0000#16
  gr := 0x0000#16
  mem := []
  slot := []
  depth := 0
  instrCount := 0#32
  callCount := 0#32
  runState := .idle
  faultCause := .noFault
  faultPc := 0x0000#16
  faultIr := 0x0000#16

end Sys2Proof.Machine
end

