-- ==== Sys2Proof/Machine/Cells.lean ====
section
/-! DEFINITION. Reading and writing one Word of a store in canonical form; the memory array and the execution
stack's slots are both held so (10_state.md R27, R28, R30; log 1). -/

namespace Sys2Proof.Machine

/-- The Word at an address: the listed one, else the reset value (10_state.md R28, R41, R49). -/
def Cells.read : Cells → Nat → Word
  | [], _ => Config.resetWord
  | (k, w) :: m, a => if a = k then w else Cells.read m a

/-- Overwrite the Word at an address (10_state.md R28), keeping the canonical form: writing the reset value
removes the entry. -/
def Cells.write : Cells → Nat → Word → Cells
  | [], a, v => if v = Config.resetWord then [] else [(a, v)]
  | (k, w) :: m, a, v =>
    if a < k then
      if v = Config.resetWord then (k, w) :: m else (a, v) :: (k, w) :: m
    else if a = k then
      if v = Config.resetWord then m else (a, v) :: m
    else (k, w) :: Cells.write m a v

/-- Addresses strictly rise from `lo`, stay below `size`, and no entry holds the reset value. -/
def Cells.wfFrom (size : Nat) : Nat → Cells → Bool
  | _, [] => true
  | lo, (k, w) :: m =>
    decide (lo ≤ k) && decide (k < size) && decide (w ≠ Config.resetWord) && Cells.wfFrom size (k + 1) m

/-- The canonical form of a store of `size` Words. -/
def Cells.wf (size : Nat) (m : Cells) : Bool := Cells.wfFrom size 0 m

/-- The memory array is in canonical form over 0x000 to 0xFFF (10_state.md R27). -/
def Memory.wf (m : Cells) : Bool := Cells.wf Config.memWords m

/-- The stack slots are in canonical form over 0x000 to 0x3FF (10_state.md R30, R32). -/
def Slots.wf (m : Cells) : Bool := Cells.wf Config.stackWords m

end Sys2Proof.Machine
end

