-- ==== Sys2Proof/Machine/Operands.lean ====
section
/-! DEFINITION. Operand forms (30_encoding.md R75, R77), the register names of the pseudocode (00_scope.md R12)
and the register access table (10_state.md R26). -/

namespace Sys2Proof.Machine

/-- `zext_16(v)`: the 12-bit field widened with zero bits 15:12 (00_scope.md R11; 30_encoding.md R77). -/
def zext16 (a : Addr) : Word := a.setWidth 16

/-- The register names of the pseudocode, `x[AC]`, `x[IR]`, `x[PC]`, `x[GR]` (00_scope.md R12). -/
inductive Reg where
  | ac
  | ir
  | pc
  | gr
  deriving DecidableEq, Repr

/-- Which registers the handler of an instruction may write: the W entries of the rows of 10_state.md R26.
The fetch's own writes of IR and PC come before the handler and are not counted here. -/
def regWrites : Instr → Reg → Bool
  | .loadAcMem _, r => r == .ac
  | .storeAcMem _, _ => false
  | .loadAcReg _, r => r == .ac
  | .storeAcReg _, r => r == .gr
  | .addAcMem _, r => r == .ac
  | .loadRegOperand _, r => r == .gr
  | .addAcReg _, r => r == .ac
  | .multAcReg _, r => r == .ac
  | .subtAcReg _, r => r == .ac
  | .divAcReg _, r => r == .ac
  | .jumpToSubrout _, r => r == .pc
  | .retFrmSubrout _, _ => true
  | .halt _, _ => false

/-- Which registers the decode and handler of an instruction read: the R entries of the rows of 10_state.md R26
("IR R" means that the decode reads IR's fields). -/
def regReads : Instr → Reg → Bool
  | .loadAcMem _, r => r == .ir
  | .storeAcMem _, r => r == .ac || r == .ir
  | .loadAcReg _, r => r == .ir || r == .gr
  | .storeAcReg _, r => r == .ac || r == .ir
  | .addAcMem _, r => r == .ac || r == .ir
  | .loadRegOperand _, r => r == .ir
  | .addAcReg _, r => r == .ac || r == .ir || r == .gr
  | .multAcReg _, r => r == .ac || r == .ir || r == .gr
  | .subtAcReg _, r => r == .ac || r == .ir || r == .gr
  | .divAcReg _, r => r == .ac || r == .ir || r == .gr
  | .jumpToSubrout _, _ => true
  | .retFrmSubrout _, _ => true
  | .halt _, _ => true

end Sys2Proof.Machine
end

