-- ==== Sys2Proof/Machine/Ops.lean ====
section
/-! DEFINITION. The named operations over registers, memory, stack and status block, fault entry (the one way a
fatal condition is taken), and the fetch. Every meaning is written over these. -/

namespace Sys2Proof.Machine

/-! ## Codes of the status block -/

/-- The code of `run_state`, 2 bits (10_state.md R38). -/
def RunState.code : RunState → BitVec 2
  | .idle => 0#2
  | .running => 1#2
  | .halted => 2#2
  | .faulted => 3#2

/-- The code of `fault_cause`, 3 bits (10_state.md R39; 60_exceptions.md R128). -/
def FaultCause.code : FaultCause → BitVec 3
  | .noFault => 0#3
  | .unrecognizedOpcode => 1#3
  | .divisionByZero => 2#3
  | .stackOverflow => 3#3
  | .stackUnderflow => 4#3
  | .fetchOutOfRange => 5#3

/-! ## Register file (10_state.md R20, R44; 00_scope.md R12) -/

/-- `AC <- v`. -/
def State.setAc (v : Word) (s : State) : State := { s with ac := v }

/-- `IR <- v`. -/
def State.setIr (v : Word) (s : State) : State := { s with ir := v }

/-- `PC <- v`. -/
def State.setPc (v : Word) (s : State) : State := { s with pc := v }

/-- `GR <- v`. -/
def State.setGr (v : Word) (s : State) : State := { s with gr := v }

/-- `x[r]` as a read (00_scope.md R12). -/
def State.readReg (s : State) : Reg → Word
  | .ac => s.ac
  | .ir => s.ir
  | .pc => s.pc
  | .gr => s.gr

/-- `x[r] <- v` (00_scope.md R12). -/
def State.writeReg (r : Reg) (v : Word) (s : State) : State :=
  match r with
  | .ac => s.setAc v
  | .ir => s.setIr v
  | .pc => s.setPc v
  | .gr => s.setGr v

/-! ## Memory array (00_scope.md R13; 10_state.md R28, R41) -/

/-- `MemRead(a)`. -/
def State.memRead (s : State) (a : Addr) : Word := Cells.read s.mem a.toNat

/-- `MemWrite(a, v)`. -/
def State.memWrite (a : Addr) (v : Word) (s : State) : State := { s with mem := Cells.write s.mem a.toNat v }

/-! ## Program counter (10_state.md R45) -/

/-- What the next-value selector of the program_counter block can choose (10_state.md R45). -/
inductive PcSource where
  /-- The fetch's increment. -/
  | increment
  /-- The target of JUMP_TO_SUBROUT. -/
  | target (a : Addr)
  /-- The Word popped by RET_FRM_SUBROUT. -/
  | popped (w : Word)
  /-- The host's `set_pc`. -/
  | host (w : Word)
  /-- Unchanged. -/
  | hold
  deriving DecidableEq, Repr

/-- The next-value selector of the program_counter block (10_state.md R45). -/
def nextPc (src : PcSource) (pc : Word) : Word :=
  match src with
  | .increment => pc + 1#16
  | .target a => zext16 a
  | .popped w => w
  | .host w => w
  | .hold => pc

/-- PC takes the selected value. -/
def State.selectPc (src : PcSource) (s : State) : State := s.setPc (nextPc src s.pc)

/-- `fetch_ok`: PC names a memory cell (10_state.md R45; 20_memory.md R62). With `MEM_WORDS` = 4096 this is
`PC[15:12] = 0` (Laws/Ops.lean, `fetchOk_iff_top_zero`). -/
def fetchOk (pc : Word) : Bool := decide (pc.toNat < Config.memWords)

/-! ## Fatal conditions (00_scope.md R15; 60_exceptions.md R135) -/

/-- A raised fatal condition: its cause, and the state at its detection. -/
structure Raised where
  cause : FaultCause
  state : State
  deriving DecidableEq, Repr

/-- How a handler ends: with its state, or at once with a fatal condition (00_scope.md R15). -/
abbrev Handled := Except Raised State

/-- Fault entry (60_exceptions.md R135): the record is written and the core is FAULTED; nothing else changes.
There is no vector, no handler and no return from it (R135, R138). -/
def faultEntry (cause : FaultCause) (pc0 : Word) (s : State) : State :=
  { s with faultCause := cause, faultPc := pc0, faultIr := s.ir, runState := .faulted }

/-- `pc0`, the address of the instruction in execution: after the fetch PC is `pc0 + 1`
(40_execution_cycle.md R100), and every fatal condition of a handler is raised before the handler writes PC.
DEDUCED (log 2). -/
def pcOfCurrent (s : State) : Word := s.pc - 1#16

/-! ## Execution stack (10_state.md R30 to R34, R42) -/

/-- The `overflow` condition of a push (10_state.md R33, R42). -/
def stackFull (s : State) : Bool := decide (s.depth = Config.stackWords)

/-- The `underflow` condition of a pop (10_state.md R34, R42). -/
def stackEmpty (s : State) : Bool := decide (s.depth = 0)

/-- `Push(v)` (10_state.md R33). -/
def push (v : Word) (s : State) : Handled :=
  if stackFull s then .error ⟨.stackOverflow, s⟩
  else .ok { s with slot := Cells.write s.slot s.depth v, depth := s.depth + 1 }

/-- `x[r] <- Pop()` (10_state.md R34): the popped slot keeps its Word. -/
def popInto (r : Reg) (s : State) : Handled :=
  if stackEmpty s then .error ⟨.stackUnderflow, s⟩
  else .ok (({ s with depth := s.depth - 1 } : State).writeReg r (Cells.read s.slot (s.depth - 1)))

/-! ## Status block -/

/-- `instr_count <- instr_count + 1`, mod 2^32 (10_state.md R36; 40_execution_cycle.md R94). -/
def State.countInstr (s : State) : State := { s with instrCount := s.instrCount + 1#32 }

/-- `call_count <- call_count + 1`, mod 2^32 (10_state.md R37; 40_execution_cycle.md R96). -/
def State.countCall (s : State) : State := { s with callCount := s.callCount + 1#32 }

/-- `run_state <- r` (10_state.md R38). -/
def State.setRunState (r : RunState) (s : State) : State := { s with runState := r }

/-! ## The ends of an instruction (40_execution_cycle.md R94, R95, R97, R102) -/

/-- After the handler: a completed one is counted, a raised condition enters FAULTED uncounted
(40_execution_cycle.md R94, R95, R102). -/
def finish : Handled → Host.Outcome State Fault Refusal
  | .ok s => .next s.countInstr
  | .error r => .next (faultEntry r.cause (pcOfCurrent r.state) r.state)

/-! ## Fetch (40_execution_cycle.md R90) -/

/-- The Word the fetch reads, `MemRead(PC[11:0])`. -/
def fetchWord (s : State) : Word := s.memRead (s.pc.setWidth 12)

/-- The effects of a fetch that passed its range check: `IR <- MemRead(PC[11:0]); PC <- PC + 1`
(40_execution_cycle.md R90). -/
def fetch (s : State) : State := (s.setIr (fetchWord s)).selectPc .increment

end Sys2Proof.Machine
end

