-- ==== Sys2Proof/Machine/Arithmetic.lean ====
section
/-! DEFINITION. The arithmetic instructions (42_arithmetic.md R109 to R113). A meaning runs after the fetch. -/

namespace Sys2Proof.Machine

/-- ADD_AC_MEM (42_arithmetic.md R109): `AC <- (AC + MemRead(address)) mod 2^16`. -/
def execAddAcMem (address : Addr) (s : State) : Host.Outcome State Fault Refusal :=
  finish (.ok (s.setAc (addWords s.ac (s.memRead address))))

/-- ADD_AC_REG (42_arithmetic.md R110): `AC <- (AC + GR) mod 2^16`. -/
def execAddAcReg (s : State) : Host.Outcome State Fault Refusal :=
  finish (.ok (s.setAc (addWords s.ac s.gr)))

/-- MULT_AC_REG (42_arithmetic.md R111): `AC <- (AC * GR) mod 2^16`. -/
def execMultAcReg (s : State) : Host.Outcome State Fault Refusal :=
  finish (.ok (s.setAc (multWords s.ac s.gr)))

/-- SUBT_AC_REG (42_arithmetic.md R112): `AC <- (AC - GR) mod 2^16`. -/
def execSubtAcReg (s : State) : Host.Outcome State Fault Refusal :=
  finish (.ok (s.setAc (subtWords s.ac s.gr)))

/-- DIV_AC_REG (42_arithmetic.md R113): DivisionByZero when GR = 0, before AC is written; otherwise
`AC <- AC div GR`. -/
def execDivAcReg (s : State) : Host.Outcome State Fault Refusal :=
  finish (if s.gr = 0#16 then .error ⟨.divisionByZero, s⟩ else .ok (s.setAc (divWords s.ac s.gr)))

end Sys2Proof.Machine
end

