-- ==== Sys2Proof/Machine/Control.lean ====
section
/-! DEFINITION. The control-transfer and halt instructions (43_control.md R119 to R124). A meaning runs after the
fetch. The snapshots that RET_FRM_SUBROUT and HALT emit are output, not state (10_state.md R50), and stand in
Snapshot.lean (log 6). -/

namespace Sys2Proof.Machine

/-- The handler of JUMP_TO_SUBROUT (43_control.md R120, R121): one overflow check, four pushes, the jump, the count. -/
def jumpHandler (target : Addr) (s : State) : Handled :=
  if stackFull s then .error ⟨.stackOverflow, s⟩
  else do
    let s1 ← push s.pc s
    let s2 ← push s1.ir s1
    let s3 ← push s2.ac s2
    let s4 ← push s3.gr s3
    return (s4.selectPc (.target target)).countCall

/-- The handler of RET_FRM_SUBROUT after its snapshot (43_control.md R122, R123): one underflow check, four pops. -/
def retHandler (s : State) : Handled :=
  if stackEmpty s then .error ⟨.stackUnderflow, s⟩
  else do
    let s1 ← popInto .gr s
    let s2 ← popInto .ac s1
    let s3 ← popInto .ir s2
    popInto .pc s3

/-- JUMP_TO_SUBROUT (43_control.md R120, R121). -/
def execJumpToSubrout (target : Addr) (s : State) : Host.Outcome State Fault Refusal :=
  finish (jumpHandler target s)

/-- RET_FRM_SUBROUT (43_control.md R122, R123). Its snapshot is `emits (.retFrmSubrout _) s` in Snapshot.lean. -/
def execRetFrmSubrout (s : State) : Host.Outcome State Fault Refusal :=
  finish (retHandler s)

/-- HALT (43_control.md R124; 40_execution_cycle.md R102): counted, then HALTED. Its snapshot is
`emits (.halt _) s` in Snapshot.lean. -/
def execHalt (s : State) : Host.Outcome State Fault Refusal :=
  .next (s.countInstr.setRunState .halted)

end Sys2Proof.Machine
end

