-- ==== Sys2Proof/Machine/Transfer.lean ====
section
/-! DEFINITION. The data-transfer instructions (41_transfer.md R104 to R108). A meaning runs after the fetch:
PC = pc0 + 1 and IR is the instruction's own word (40_execution_cycle.md R100). -/

namespace Sys2Proof.Machine

/-- LOAD_AC_MEM (41_transfer.md R104): `AC <- MemRead(address)`. -/
def execLoadAcMem (address : Addr) (s : State) : Host.Outcome State Fault Refusal :=
  finish (.ok (s.setAc (s.memRead address)))

/-- STORE_AC_MEM (41_transfer.md R105): `MemWrite(address, AC)`. -/
def execStoreAcMem (address : Addr) (s : State) : Host.Outcome State Fault Refusal :=
  finish (.ok (s.memWrite address s.ac))

/-- LOAD_AC_REG (41_transfer.md R106): `AC <- GR`. -/
def execLoadAcReg (s : State) : Host.Outcome State Fault Refusal :=
  finish (.ok (s.setAc s.gr))

/-- STORE_AC_REG (41_transfer.md R107): `GR <- AC`. -/
def execStoreAcReg (s : State) : Host.Outcome State Fault Refusal :=
  finish (.ok (s.setGr s.ac))

/-- LOAD_REG_OPERAND (41_transfer.md R108): `GR <- zext_16(address)`. -/
def execLoadRegOperand (imm : Addr) (s : State) : Host.Outcome State Fault Refusal :=
  finish (.ok (s.setGr (zext16 imm)))

end Sys2Proof.Machine
end

