-- ==== Sys2Proof/Machine/Dispatch.lean ====
section
/-! DEFINITION. Dispatch of each instruction to exactly one handler (40_execution_cycle.md R93), from the state
after the fetch. -/

namespace Sys2Proof.Machine

def exec (i : Instr) (s : State) : Host.Outcome State Fault Refusal :=
  match i with
  | .loadAcMem address => Sys2Proof.Machine.execLoadAcMem address s
  | .storeAcMem address => Sys2Proof.Machine.execStoreAcMem address s
  | .loadAcReg _ => Sys2Proof.Machine.execLoadAcReg s
  | .storeAcReg _ => Sys2Proof.Machine.execStoreAcReg s
  | .addAcMem address => Sys2Proof.Machine.execAddAcMem address s
  | .loadRegOperand imm => Sys2Proof.Machine.execLoadRegOperand imm s
  | .addAcReg _ => Sys2Proof.Machine.execAddAcReg s
  | .multAcReg _ => Sys2Proof.Machine.execMultAcReg s
  | .subtAcReg _ => Sys2Proof.Machine.execSubtAcReg s
  | .divAcReg _ => Sys2Proof.Machine.execDivAcReg s
  | .jumpToSubrout target => Sys2Proof.Machine.execJumpToSubrout target s
  | .retFrmSubrout _ => Sys2Proof.Machine.execRetFrmSubrout s
  | .halt _ => Sys2Proof.Machine.execHalt s

end Sys2Proof.Machine
end

