-- ==== Sys2Proof/Machine/Cycle.lean ====
section
/-! DEFINITION. The step of a RUNNING core: fetch, decode, dispatch (40_execution_cycle.md R90 to R93, R102). -/

namespace Sys2Proof.Machine

/-- Decode IR and dispatch, from the state after the fetch; an illegal opcode is raised here, before any other
effect (40_execution_cycle.md R92, R93; 60_exceptions.md R129). -/
def decodeAndExec (s : State) : Host.Outcome State Fault Refusal :=
  match decode s.ir with
  | .instr i => exec i s
  | .unrecognizedOpcode _ => finish (.error ⟨.unrecognizedOpcode, s⟩)

/-- One cycle (40_execution_cycle.md R102). A fetch out of range is raised before any state changes, with
`fault_pc` = PC and `fault_ir` = the IR of before (R91; 60_exceptions.md R133). -/
def cycle (s : State) : Host.Outcome State Fault Refusal :=
  if fetchOk s.pc then decodeAndExec (fetch s)
  else .next (faultEntry .fetchOutOfRange s.pc s)

/-- The state in which the word `w` stands where the next step fetches and the core is RUNNING: what the host's
`load_word` at PC and `run()` leave. A PC that cannot be fetched from loses its bits 15:12 (log 4). -/
def placeFetchWord (w : Word) (s : State) : State :=
  let a : Addr := s.pc.setWidth 12
  ((s.setPc (zext16 a)).memWrite a w).setRunState .running

end Sys2Proof.Machine
end

