-- ==== Sys2Proof/Machine/Step.lean ====
section
/-! DEFINITION. The step (40_execution_cycle.md R89, R98, R102). -/

namespace Sys2Proof.Machine

/-- One step: only a RUNNING core has one (40_execution_cycle.md R89, R98; log 3). -/
def step (s : State) : Host.Outcome State Fault Refusal :=
  match s.runState with
  | .running => cycle s
  | .idle => .fault .idle
  | .halted => .fault .halted
  | .faulted => .fault .faulted

/-- `s` with the instruction of the table's bits `w` where the next step fetches it, the core RUNNING (log 4). -/
def State.withFetchWord (s : State) (nbits w : Nat) : State :=
  placeFetchWord (BitVec.ofNat 16 (w % 2 ^ nbits)) s

end Sys2Proof.Machine
end

