-- ==== Sys2Proof/Machine/Assembler.lean ====
section
/-! DEFINITION. The assembler of the spec's own syntax (30_encoding.md R83 to R86, decisions D6 and D20): from text
to the Words of an image with their addresses, in the order of the text. The lexical points the rules leave open
are DESIGN CHOICEs of log 11. It is no part of a step. -/

namespace Sys2Proof.Machine

/-- An operand: a number, or a label's name (30_encoding.md R83). -/
inductive AsmOperand where
  | number (n : Nat)
  | label (name : List Char)
  deriving DecidableEq, Repr

/-- One line (30_encoding.md R83, R85). -/
inductive AsmLine where
  /-- Nothing, or a comment alone. -/
  | blank
  /-- `label:` names the address of the next Word. -/
  | label (name : List Char)
  /-- `.org addr`. -/
  | org (addr : Nat)
  /-- `.word value`. -/
  | word (value : Nat)
  /-- `MNEMONIC` or `MNEMONIC operand`. -/
  | op (opcode : Opcode) (operand : Option AsmOperand)
  deriving DecidableEq, Repr

/-- An assembly error (30_encoding.md R84). -/
inductive AsmError where
  /-- The line has none of the forms of R83 and R85. -/
  | badLine
  /-- A mnemonic of R76 with an operand it does not take, or without the one it takes (R84). -/
  | wrongOperand
  /-- An operand or address outside 0 to 0xFFF; never truncated (R84). -/
  | outOfRange
  /-- A `.word` value outside 0 to 0xFFFF (R85). -/
  | valueOutOfRange
  /-- An operand names a label no line defines. -/
  | unknownLabel
  /-- Two lines define one label. -/
  | duplicateLabel
  deriving DecidableEq, Repr

/-! ## Characters and tokens -/

/-- A space, a tab or a carriage return separates tokens (log 11). -/
def asmBlank (c : Char) : Bool := c = ' ' || c = '\t' || c = '\r'

/-- A text cut at a separator; the separators are dropped. -/
def splitChars (sep : Char → Bool) : List Char → List (List Char)
  | [] => [[]]
  | c :: cs =>
    match splitChars sep cs with
    | [] => [[c]]
    | t :: ts => if sep c then [] :: t :: ts else (c :: t) :: ts

/-- A `;` starts a comment to the end of the line (30_encoding.md R83). -/
def stripComment (line : List Char) : List Char := line.takeWhile fun c => c ≠ ';'

/-- The tokens of a line. -/
def asmTokens (line : List Char) : List (List Char) :=
  (splitChars asmBlank (stripComment line)).filter fun t => !t.isEmpty

/-- The value of a digit, in hexadecimal of either case. -/
def digitValue (c : Char) : Option Nat :=
  let n := c.toNat
  if 48 ≤ n ∧ n ≤ 57 then some (n - 48)
  else if 65 ≤ n ∧ n ≤ 70 then some (n - 55)
  else if 97 ≤ n ∧ n ≤ 102 then some (n - 87)
  else none

/-- Digits of a base, most significant first, after the value read so far. -/
def digitsFrom (base : Nat) : Nat → List Char → Option Nat
  | acc, [] => some acc
  | acc, c :: cs =>
    match digitValue c with
    | some d => if d < base then digitsFrom base (acc * base + d) cs else none
    | none => none

/-- A number: hexadecimal `0x...` or decimal (30_encoding.md R83). -/
def asmNumber : List Char → Option Nat
  | '0' :: 'x' :: c :: cs => digitsFrom 16 0 (c :: cs)
  | c :: cs => digitsFrom 10 0 (c :: cs)
  | [] => none

/-- A token that begins with a decimal digit is a number, any other a label's name (log 11). -/
def startsWithDigit : List Char → Bool
  | c :: _ => decide (48 ≤ c.toNat ∧ c.toNat ≤ 57)
  | [] => false

/-- The operand a token stands for. -/
def asmOperand (t : List Char) : Option AsmOperand :=
  if startsWithDigit t then (asmNumber t).map .number else some (.label t)

/-- The mnemonics, exactly those of 30_encoding.md R76. -/
def asmMnemonics : List (List Char × Opcode) :=
  [ ("LOAD_AC_MEM".toList, 0x1#4), ("STORE_AC_MEM".toList, 0x2#4), ("LOAD_AC_REG".toList, 0x3#4),
    ("STORE_AC_REG".toList, 0x4#4), ("ADD_AC_MEM".toList, 0x5#4), ("LOAD_REG_OPERAND".toList, 0x6#4),
    ("ADD_AC_REG".toList, 0x7#4), ("MULT_AC_REG".toList, 0x8#4), ("SUBT_AC_REG".toList, 0x9#4),
    ("DIV_AC_REG".toList, 0xA#4), ("JUMP_TO_SUBROUT".toList, 0xB#4), ("RET_FRM_SUBROUT".toList, 0xC#4),
    ("HALT".toList, 0xF#4) ]

/-- Whether an opcode's mnemonic takes an operand (30_encoding.md R75, R84). -/
def takesOperand (o : Opcode) : Bool :=
  o = 0x1#4 || o = 0x2#4 || o = 0x5#4 || o = 0x6#4 || o = 0xB#4

/-- A label definition: the name before a final colon. It begins with no digit, so that an operand can name it. -/
def labelName (t : List Char) : Option (List Char) :=
  match t.reverse with
  | ':' :: r => if r.isEmpty || startsWithDigit r.reverse then none else some r.reverse
  | _ => none

/-- One line from its tokens (30_encoding.md R83, R85). -/
def asmLineOfTokens (ts : List (List Char)) : Except AsmError AsmLine :=
  match ts with
  | [] => .ok .blank
  | [t] =>
    match labelName t, asmMnemonics.lookup t with
    | some name, _ => .ok (.label name)
    | none, some o => .ok (.op o none)
    | none, none => .error .badLine
  | [t, x] =>
    if t = ".org".toList then
      match asmNumber x with
      | some n => .ok (.org n)
      | none => .error .badLine
    else if t = ".word".toList then
      match asmNumber x with
      | some n => .ok (.word n)
      | none => .error .badLine
    else
      match asmMnemonics.lookup t, asmOperand x with
      | some o, some y => .ok (.op o (some y))
      | _, _ => .error .badLine
  | _ :: _ :: _ :: _ => .error .badLine

/-- One line of text. -/
def asmParseLine (line : List Char) : Except AsmError AsmLine := asmLineOfTokens (asmTokens line)

/-- All lines of a text. -/
def asmParse (text : List Char) : Except AsmError (List AsmLine) :=
  (splitChars (fun c => c = '\n') text).mapM asmParseLine

/-! ## Two passes -/

/-- The address of the next Word after a line that stands at `loc` (30_encoding.md R83, R85). -/
def asmNext (loc : Nat) : AsmLine → Nat
  | .blank => loc
  | .label _ => loc
  | .org addr => addr
  | .word _ => loc + 1
  | .op _ _ => loc + 1

/-- The labels with their addresses: a label is bound to the address of the next Word as it stands at the label's
line. DESIGN CHOICE (log 11): so a label before an `.org` is bound to the address before the `.org`, not to the one
that the `.org` sets (30_encoding.md R83 and R85 do not say which), and a label that no Word follows is bound too. -/
def asmLabels : Nat → List AsmLine → List (List Char × Nat)
  | _, [] => []
  | loc, l :: ls =>
    match l with
    | .label name => (name, loc) :: asmLabels loc ls
    | .blank => asmLabels loc ls
    | .org addr => asmLabels addr ls
    | .word _ => asmLabels (loc + 1) ls
    | .op _ _ => asmLabels (loc + 1) ls

/-- The number an operand stands for. -/
def asmResolve (labels : List (List Char × Nat)) : AsmOperand → Except AsmError Nat
  | .number n => .ok n
  | .label name =>
    match labels.lookup name with
    | some n => .ok n
    | none => .error .unknownLabel

/-- The Word of an instruction line (30_encoding.md R84, R86): `encode(opcode, operand)`, or `encode(opcode, 0)`
for a mnemonic alone; an operand out of range is an error. -/
def asmOpWord (labels : List (List Char × Nat)) (o : Opcode) (operand : Option AsmOperand) : Except AsmError Word :=
  match operand with
  | none => if takesOperand o then .error .wrongOperand else .ok (encodeFields o 0#12)
  | some x =>
    if takesOperand o then
      match asmResolve labels x with
      | .ok n => if addressInRange n then .ok (encodeFields o (BitVec.ofNat 12 n)) else .error .outOfRange
      | .error e => .error e
    else .error .wrongOperand

/-- The Word a line places, if it places one. -/
def asmLineWord (labels : List (List Char × Nat)) : AsmLine → Except AsmError (Option Word)
  | .blank => .ok none
  | .label _ => .ok none
  | .org addr => if addressInRange addr then .ok none else .error .outOfRange
  | .word value => if wordInRange value then .ok (some (BitVec.ofNat 16 value)) else .error .valueOutOfRange
  | .op o x => (asmOpWord labels o x).map some

/-- The Words with their addresses, from the line at `loc` on; an address above 0xFFF is an error (log 11). -/
def asmEmit (labels : List (List Char × Nat)) : Nat → List AsmLine → Except AsmError (List (Nat × Nat))
  | _, [] => .ok []
  | loc, l :: ls =>
    match asmLineWord labels l with
    | .error e => .error e
    | .ok none => asmEmit labels (asmNext loc l) ls
    | .ok (some w) =>
      if addressInRange loc then (asmEmit labels (asmNext loc l) ls).map fun r => (loc, w.toNat) :: r
      else .error .outOfRange

/-- The image of a program's lines: (address, Word) pairs for `load_word` (70_reset_and_hazards.md R156). -/
def assembleLines (ls : List AsmLine) : Except AsmError (List (Nat × Nat)) :=
  let labels := asmLabels 0 ls
  if (labels.map Prod.fst).Nodup then asmEmit labels 0 ls else .error .duplicateLabel

/-- The image of a program's text. -/
def assemble (text : List Char) : Except AsmError (List (Nat × Nat)) :=
  match asmParse text with
  | .ok ls => assembleLines ls
  | .error e => .error e

end Sys2Proof.Machine
end

