-- ==== Sys2Proof/Machine/Snapshot.lean ====
section
/-! DEFINITION. The snapshot record and the events of an instruction and of a step (00_scope.md R16;
10_state.md R35; 40_execution_cycle.md R97; 43_control.md R125). Events are output, not state (10_state.md R50),
and a function of the state before the step (40_execution_cycle.md R101); DEDUCED (log 6). -/

namespace Sys2Proof.Machine

/-- `kind` of a snapshot (43_control.md R125). -/
inductive SnapshotKind where
  | ret
  | halt
  deriving DecidableEq, Repr

/-- The snapshot record (43_control.md R125). -/
structure Snapshot where
  kind : SnapshotKind
  /-- For RET the value of `call_count`, for HALT absent. -/
  label : Option Count
  pc : Word
  ir : Word
  ac : Word
  gr : Word
  /-- The diagnostic view, top to bottom (10_state.md R35). -/
  stack : List (Nat × Word)
  /-- The inspection window, from `INSPECT_LO` to `INSPECT_HI`. -/
  window : List Word
  instrCount : Count
  deriving DecidableEq, Repr

/-- The slots below `n`, from slot `n - 1` down to slot 0. -/
def slotsDown (slot : Cells) : Nat → List (Nat × Word)
  | 0 => []
  | n + 1 => (n, Cells.read slot n) :: slotsDown slot n

/-- The stack's diagnostic view (10_state.md R35), with the numbering of R32. -/
def stackView (s : State) : List (Nat × Word) := slotsDown s.slot s.depth

/-- The inspection window, `(MemRead(0x940), MemRead(0x941), MemRead(0x942))` (10_state.md R41). -/
def inspectWindow (s : State) : List Word :=
  (List.range (Config.inspectHi + 1 - Config.inspectLo)).map fun k => Cells.read s.mem (Config.inspectLo + k)

/-- The record read from the state at the moment of the `emit` (43_control.md R125). -/
def snapshotOf (kind : SnapshotKind) (s : State) : Snapshot where
  kind := kind
  label := match kind with
    | .ret => some s.callCount
    | .halt => none
  pc := s.pc
  ir := s.ir
  ac := s.ac
  gr := s.gr
  stack := stackView s
  window := inspectWindow s
  instrCount := s.instrCount

/-- The events of an instruction executed from `s`, the state after its fetch (40_execution_cycle.md R97):
RET_FRM_SUBROUT emits one, before any pop and also when it then underflows; HALT emits one; no other does. -/
def emits (i : Instr) (s : State) : List Snapshot :=
  match i with
  | .loadAcMem _ => []
  | .storeAcMem _ => []
  | .loadAcReg _ => []
  | .storeAcReg _ => []
  | .addAcMem _ => []
  | .loadRegOperand _ => []
  | .addAcReg _ => []
  | .multAcReg _ => []
  | .subtAcReg _ => []
  | .divAcReg _ => []
  | .jumpToSubrout _ => []
  | .retFrmSubrout _ => [snapshotOf .ret s]
  | .halt _ => [snapshotOf .halt s]

/-- The events of the step from `s` (40_execution_cycle.md R97): none without a step, on a fetch out of range or
on an illegal opcode (60_exceptions.md R137). -/
def stepEmits (s : State) : List Snapshot :=
  match s.runState with
  | .running =>
    if fetchOk s.pc then
      match decode (fetch s).ir with
      | .instr i => emits i (fetch s)
      | .unrecognizedOpcode _ => []
    else []
  | .idle => []
  | .halted => []
  | .faulted => []

end Sys2Proof.Machine
end

