-- ==== Sys2Proof/Machine/Blocks.lean ====
section
/-! DEFINITION. The blocks of the CORE with the ports the spec lists (10_state.md R41 to R47, decision D25), each a
function from its inputs and its state to its outputs, and the datapath that joins them. The datapath is a second
description of the step; the statements say that it is the same machine. How the blocks' outputs are joined within
one step is DEDUCED from the rules of each instruction (log 12). -/

namespace Sys2Proof.Machine

/-! ## memory_array (10_state.md R41) -/

/-- The read port: `rd_addr -> rd_data`. -/
def memoryReadPort (m : Cells) (rdAddr : Addr) : Word := Cells.read m rdAddr.toNat

/-- The write port: `wr_en, wr_addr, wr_data`. -/
def memoryWritePort (m : Cells) (wrEn : Bool) (wrAddr : Addr) (wrData : Word) : Cells :=
  if wrEn then Cells.write m wrAddr.toNat wrData else m

/-! ## execution_stack (10_state.md R42) -/

/-- The inputs of the execution_stack block. -/
structure StackIn where
  pushEn : Bool
  pushData : Word
  popEn : Bool
  deriving DecidableEq, Repr

/-- No push and no pop. -/
def StackIn.idle : StackIn := { pushEn := false, pushData := 0#16, popEn := false }

/-- A push of a Word. -/
def StackIn.push (v : Word) : StackIn := { pushEn := true, pushData := v, popEn := false }

/-- A pop. -/
def StackIn.pop : StackIn := { pushEn := false, pushData := 0#16, popEn := true }

/-- The outputs of the execution_stack block, and its state after the operation. -/
structure StackOut where
  popData : Word
  /-- `depth[10:0]`, the occupancy that `overflow` and `underflow` are told by: the one before the operation. -/
  depth : BitVec 11
  overflow : Bool
  underflow : Bool
  /-- The diagnostic view of 10_state.md R35. -/
  view : List (Nat × Word)
  /-- The block's slots after the operation. -/
  slotNext : Cells
  /-- The block's occupancy after the operation. -/
  depthNext : Nat
  deriving DecidableEq, Repr

/-- One push or one pop per operation; an overflowing push and an underflowing pop change nothing
(10_state.md R33, R34, R42).
DESIGN CHOICE (log 14), where R42 gives no value: with `push_en` and `pop_en` both high the push is done and the pop
is not, but on a full stack the pop is done; `pop_data` is driven without a pop too, and is `slot[depth - 1]`, which
at depth 0 is `slot[0]`. The datapath never drives both enables and never uses such a `pop_data`. -/
def executionStack (slot : Cells) (depth : Nat) (inp : StackIn) : StackOut :=
  let overflow := inp.pushEn && decide (depth = Config.stackWords)
  let underflow := inp.popEn && decide (depth = 0)
  { popData := Cells.read slot (depth - 1)
    depth := BitVec.ofNat 11 depth
    overflow := overflow
    underflow := underflow
    view := slotsDown slot depth
    slotNext := if inp.pushEn && !overflow then Cells.write slot depth inp.pushData else slot
    depthNext :=
      if inp.pushEn && !overflow then depth + 1
      else if inp.popEn && !underflow then depth - 1
      else depth }

/-! ## instruction_decoder (10_state.md R43) -/

/-- The outputs of the instruction_decoder block. -/
structure DecoderOut where
  opcode : Opcode
  address : Addr
  valid : Bool
  deriving DecidableEq, Repr

/-- The decoder is pure and total and has no error output (10_state.md R43). -/
def instructionDecoder (word : Word) : DecoderOut where
  opcode := decodeOpcode word
  address := decodeAddress word
  valid := validOpcode (decodeOpcode word)

/-! ## fetch_unit (10_state.md R46) -/

/-- The outputs of the fetch_unit block. -/
structure FetchOut where
  rdAddr : Addr
  irWrite : Bool
  pcSource : PcSource
  fetchOutOfRange : Bool
  deriving DecidableEq, Repr

/-- When RUNNING and `fetch_ok`, read at `PC[11:0]`, load IR and request `PC + 1`; when RUNNING and not
`fetch_ok`, signal FetchOutOfRange (10_state.md R46).
DESIGN CHOICE (log 14), where R46 gives no value: when the core is not RUNNING or not `fetch_ok`, `rd_addr` shows
`PC[11:0]` all the same; nothing is loaded then. -/
def fetchUnit (run : RunState) (pc : Word) : FetchOut where
  rdAddr := pc.setWidth 12
  irWrite := run = .running && fetchOk pc
  pcSource := if run = .running && fetchOk pc then .increment else .hold
  fetchOutOfRange := run = .running && !fetchOk pc

/-! ## alu_dispatch (10_state.md R47) -/

/-- The inputs of the alu_dispatch block. -/
structure AluIn where
  opcode : Opcode
  address : Addr
  valid : Bool
  ac : Word
  gr : Word
  rdData : Word
  /-- What `pop_data` carries in the `FRAME_WORDS` pops of one return, in the order of the pops (log 12). -/
  popData : Vector Word 4
  depth : BitVec 11
  deriving DecidableEq, Repr

/-- The outputs of the alu_dispatch block. A write enable and its value are one `Option`; PC's are `pcSource`, the
selection of the program_counter block. The pushes name the registers whose read outputs are pushed, in order. -/
structure AluOut where
  acWrite : Option Word := none
  irWrite : Option Word := none
  grWrite : Option Word := none
  memWrite : Option Word := none
  pushes : List Reg := []
  pops : Nat := 0
  pcSource : PcSource := .hold
  countInstr : Bool := false
  countCall : Bool := false
  snapshot : Option SnapshotKind := none
  halt : Bool := false
  fault : Option FaultCause := none
  deriving DecidableEq, Repr

/-- The requests of a handler that completes with no other effect: it is counted (40_execution_cycle.md R94). -/
def AluOut.completed : AluOut := { countInstr := true }

/-- The requests of a handler that raises a fatal condition: nothing is counted or written
(40_execution_cycle.md R95). -/
def AluOut.raised (cause : FaultCause) : AluOut := { fault := some cause }

/-- The dispatch of each opcode to its requests (10_state.md R47; 41_transfer.md, 42_arithmetic.md, 43_control.md). -/
def aluDispatch (x : AluIn) : AluOut :=
  if x.valid then
    match x.opcode.toNat with
    | 0x1 => { AluOut.completed with acWrite := some x.rdData }
    | 0x2 => { AluOut.completed with memWrite := some x.ac }
    | 0x3 => { AluOut.completed with acWrite := some x.gr }
    | 0x4 => { AluOut.completed with grWrite := some x.ac }
    | 0x5 => { AluOut.completed with acWrite := some (addWords x.ac x.rdData) }
    | 0x6 => { AluOut.completed with grWrite := some (zext16 x.address) }
    | 0x7 => { AluOut.completed with acWrite := some (addWords x.ac x.gr) }
    | 0x8 => { AluOut.completed with acWrite := some (multWords x.ac x.gr) }
    | 0x9 => { AluOut.completed with acWrite := some (subtWords x.ac x.gr) }
    | 0xA =>
      if x.gr = 0#16 then .raised .divisionByZero
      else { AluOut.completed with acWrite := some (divWords x.ac x.gr) }
    | 0xB =>
      if x.depth.toNat = Config.stackWords then .raised .stackOverflow
      else
        { AluOut.completed with
          pushes := [.pc, .ir, .ac, .gr], pcSource := .target x.address, countCall := true }
    | 0xC =>
      if x.depth.toNat = 0 then { AluOut.raised .stackUnderflow with snapshot := some .ret }
      else
        { AluOut.completed with
          snapshot := some .ret, pops := Config.frameWords
          grWrite := some x.popData[0], acWrite := some x.popData[1], irWrite := some x.popData[2]
          pcSource := .popped x.popData[3] }
    | _ => { AluOut.completed with snapshot := some .halt, halt := true }
  else .raised .unrecognizedOpcode

/-! ## The datapath -/

/-- The outputs of the execution_stack block for one request. -/
def stackPort (inp : StackIn) (s : State) : StackOut := executionStack s.slot s.depth inp

/-- One operation of the execution_stack block takes effect. -/
def stackOperate (inp : StackIn) (s : State) : State :=
  { s with slot := (stackPort inp s).slotNext, depth := (stackPort inp s).depthNext }

/-- One push of a register's read output. -/
def pushPort (s : State) (r : Reg) : State := stackOperate (.push (s.readReg r)) s

/-- A number of pops, one after another. -/
def popPort : Nat → State → State
  | 0, s => s
  | n + 1, s => popPort n (stackOperate .pop s)

/-- `pop_data` after `n` pops. -/
def popDataAfter (n : Nat) (s : State) : Word := (stackPort .pop (popPort n s)).popData

/-- The state after the fetch_unit's outputs took effect. -/
def datapathFetch (s : State) : State :=
  let f := fetchUnit s.runState s.pc
  { s with ir := if f.irWrite then memoryReadPort s.mem f.rdAddr else s.ir, pc := nextPc f.pcSource s.pc }

/-- The alu_dispatch outputs for the word in IR.
DESIGN CHOICE (log 12), where R41 and R47 do not say which block drives `rd_addr` for a data read: after the fetch it
is wired from the decoder's `address` output. -/
def datapathAlu (s : State) : AluOut :=
  let d := instructionDecoder s.ir
  aluDispatch
    { opcode := d.opcode, address := d.address, valid := d.valid, ac := s.ac, gr := s.gr,
      rdData := memoryReadPort s.mem d.address,
      popData := #v[popDataAfter 0 s, popDataAfter 1 s, popDataAfter 2 s, popDataAfter 3 s],
      depth := (stackPort .idle s).depth }

/-- The requests of alu_dispatch take effect: the pushes, of the registers as they were; the pops; the writes; PC;
the counters; the run state.
DESIGN CHOICE (log 12), where R47 says only that alu_dispatch outputs "the memory write" and not which block drives
`wr_addr`: `AluOut.memWrite` carries the enable and the data, and `wr_addr` is wired from the decoder's `address`
output. -/
def datapathApply (o : AluOut) (s : State) : State :=
  let s1 := popPort o.pops (o.pushes.foldl pushPort s)
  let s2 := s1.selectPc o.pcSource
  { s2 with
    ac := o.acWrite.getD s.ac
    ir := o.irWrite.getD s.ir
    gr := o.grWrite.getD s.gr
    mem := memoryWritePort s.mem o.memWrite.isSome (instructionDecoder s.ir).address (o.memWrite.getD 0#16)
    instrCount := if o.countInstr then s.instrCount + 1#32 else s.instrCount
    callCount := if o.countCall then s.callCount + 1#32 else s.callCount
    runState := if o.halt then .halted else s.runState }

/-- One step of a RUNNING core through its blocks; `fault_pc` is the PC at the start of the step
(40_execution_cycle.md R102). -/
def datapathStep (s : State) : State :=
  if (fetchUnit s.runState s.pc).fetchOutOfRange then faultEntry .fetchOutOfRange s.pc s
  else
    let f := datapathFetch s
    let o := datapathAlu f
    match o.fault with
    | some c => faultEntry c s.pc f
    | none => datapathApply o f

/-- The snapshot events of one step of a RUNNING core through its blocks. -/
def datapathEmits (s : State) : List Snapshot :=
  if (fetchUnit s.runState s.pc).fetchOutOfRange then []
  else
    let f := datapathFetch s
    ((datapathAlu f).snapshot.map fun k => snapshotOf k f).toList

end Sys2Proof.Machine
end

