-- ==== Sys2Proof/Machine/HostOps.lean ====
section
/-! DEFINITION. The host interface (10_state.md R48; 70_reset_and_hazards.md R148 to R156, R165): its operations as
functions of the state beside the step, its status accessors, and a run with the snapshots it emits (log 10). -/

namespace Sys2Proof.Machine

/-- What the host sees of an operation: the state after it, and whether it was accepted. A refused operation
changes no state (70_reset_and_hazards.md section 2). -/
structure HostReply where
  state : State
  accepted : Bool
  deriving DecidableEq, Repr

/-- The operations of the host that act on the core (10_state.md R48). The arguments of `load_word` are plain
numbers, because the core refuses the ones out of range (70_reset_and_hazards.md R151). -/
inductive HostCommand where
  | reset
  | loadWord (address value : Nat)
  | setPc (value : Word)
  | run
  deriving DecidableEq, Repr

/-- `reset`, accepted in every run state (70_reset_and_hazards.md R148). -/
def hostReset (_ : State) : HostReply := ⟨State.reset, true⟩

/-- `load_word(address, value)`: in IDLE and in range, `MemWrite(address, value)`; refused otherwise
(70_reset_and_hazards.md R151). -/
def hostLoadWord (address value : Nat) (s : State) : HostReply :=
  if s.runState = .idle && addressInRange address && wordInRange value then
    ⟨s.memWrite (BitVec.ofNat 12 address) (BitVec.ofNat 16 value), true⟩
  else ⟨s, false⟩

/-- `set_pc(value)`: in IDLE, `PC <- value`; refused otherwise (70_reset_and_hazards.md R152). -/
def hostSetPc (value : Word) (s : State) : HostReply :=
  if s.runState = .idle then ⟨s.selectPc (.host value), true⟩ else ⟨s, false⟩

/-- `run()`: in IDLE, `run_state <- RUNNING`; refused otherwise (70_reset_and_hazards.md R153). The steps that
follow are `runFor`. -/
def hostRun (s : State) : HostReply :=
  if s.runState = .idle then ⟨s.setRunState .running, true⟩ else ⟨s, false⟩

/-- One operation of the host. -/
def hostApply (c : HostCommand) (s : State) : HostReply :=
  match c with
  | .reset => hostReset s
  | .loadWord a v => hostLoadWord a v s
  | .setPc v => hostSetPc v s
  | .run => hostRun s

/-- The state after a list of operations, in order. -/
def hostApplyAll : List HostCommand → State → State
  | [], s => s
  | c :: cs, s => hostApplyAll cs (hostApply c s).state

/-- The boot order up to `run()` (70_reset_and_hazards.md R156): reset, the image's Words in order, the entry, run. -/
def bootCommands (image : List (Nat × Nat)) (entry : Word) : List HostCommand :=
  .reset :: (image.map fun p => .loadWord p.1 p.2) ++ [.setPc entry, .run]

/-- Everything the status accessors show (70_reset_and_hazards.md R154). -/
structure Status where
  pc : Word
  ir : Word
  ac : Word
  gr : Word
  stack : List (Nat × Word)
  depth : BitVec 11
  window : List Word
  instrCount : Count
  callCount : Count
  runState : BitVec 2
  faultCause : BitVec 3
  faultPc : Word
  faultIr : Word
  deriving DecidableEq, Repr

/-- The status accessors, read-only and accepted in every run state (70_reset_and_hazards.md R154). -/
def statusOf (s : State) : Status where
  pc := s.pc
  ir := s.ir
  ac := s.ac
  gr := s.gr
  stack := stackView s
  depth := BitVec.ofNat 11 s.depth
  window := inspectWindow s
  instrCount := s.instrCount
  callCount := s.callCount
  runState := s.runState.code
  faultCause := s.faultCause.code
  faultPc := s.faultPc
  faultIr := s.faultIr

/-- At most `n` steps of a run, with the snapshots in emission order; it stays where no step exists
(40_execution_cycle.md R98, R99; 70_reset_and_hazards.md R155, R165). -/
def runFor : Nat → State → State × List Snapshot
  | 0, s => (s, [])
  | n + 1, s =>
    match step s with
    | .next t => ((runFor n t).1, stepEmits s ++ (runFor n t).2)
    | .fault _ => (s, [])
    | .refused _ => (s, [])

/-- The end of a run: the core is HALTED or FAULTED (70_reset_and_hazards.md R165). -/
def stopped (s : State) : Bool := s.runState = .halted || s.runState = .faulted

end Sys2Proof.Machine
end

