-- ==== Sys2Proof/Safety.lean ====
section
/-! DEFINITION. The terms the statements use: the invariant of the reachable states, a decoded next instruction,
and agreement of two states on what a program can see. -/

namespace Sys2Proof.Machine

/-- What holds of the state at reset, after every host operation and after every step. -/
structure State.Inv (s : State) : Prop where
  /-- The memory array keeps its canonical form (10_state.md R27). -/
  memWf : Memory.wf s.mem = true
  /-- The stack slots keep their canonical form (10_state.md R30). -/
  slotsWf : Slots.wf s.slot = true
  /-- At most 1024 slots are occupied (10_state.md R30). -/
  depthLe : s.depth ≤ Config.stackWords
  /-- Whole frames only (10_state.md R31). -/
  depthFrames : Config.frameWords ∣ s.depth
  /-- Every live frame's return address is one that a fetch produced (43_control.md R127). -/
  returnAddress : ∀ k, Config.frameWords * k < s.depth →
    1 ≤ (Cells.read s.slot (Config.frameWords * k)).toNat ∧
      (Cells.read s.slot (Config.frameWords * k)).toNat ≤ Config.memWords
  /-- Every live frame's saved IR is the word of a JUMP_TO_SUBROUT (10_state.md R22; 43_control.md R120). -/
  savedCall : ∀ k, Config.frameWords * k < s.depth →
    decodeOpcode (Cells.read s.slot (Config.frameWords * k + 1)) = 0xB#4
  /-- A fault is recorded exactly in FAULTED (10_state.md R39; 60_exceptions.md R135, R138). -/
  faultRecorded : s.faultCause = .noFault ↔ s.runState ≠ .faulted

/-- The core is RUNNING, its PC can be fetched from, and the Word there decodes to `i`: the next step runs `i`. -/
abbrev State.nextIs (s : State) (i : Instr) : Prop :=
  s.runState = .running ∧ s.pc.toNat < Config.memWords ∧ decode (Cells.read s.mem s.pc.toNat) = .instr i

/-- Everything but the four registers, the memory and the stack's occupied slots is the status block and the stale
slots, which no program can see (10_state.md R34, R52). Two states agree on what a program can see: -/
structure SameForPrograms (s t : State) : Prop where
  ac : s.ac = t.ac
  ir : s.ir = t.ir
  pc : s.pc = t.pc
  gr : s.gr = t.gr
  mem : s.mem = t.mem
  depth : s.depth = t.depth
  /-- Occupied slots only: the Words of popped slots may differ (10_state.md R34, R49). -/
  slots : ∀ k, k < s.depth → Cells.read s.slot k = Cells.read t.slot k

/-- Every register outside a list is unchanged (the frame of 10_state.md R26). -/
def SameRegsExcept (rs : List Reg) (s t : State) : Prop := ∀ r, r ∉ rs → t.readReg r = s.readReg r

/-- The stack is unchanged: slots, stale ones too, and occupancy. -/
structure SameStack (s t : State) : Prop where
  slot : t.slot = s.slot
  depth : t.depth = s.depth

/-- The fault record and `run_state` are unchanged: nothing was raised and nothing halted. -/
structure SameRun (s t : State) : Prop where
  runState : t.runState = s.runState
  faultCause : t.faultCause = s.faultCause
  faultPc : t.faultPc = s.faultPc
  faultIr : t.faultIr = s.faultIr

/-- `instr_count` has grown by one, mod 2^32 (40_execution_cycle.md R94). -/
def InstrCounted (s t : State) : Prop := t.instrCount.toNat = (s.instrCount.toNat + 1) % 2 ^ 32

/-- Both counters are unchanged (40_execution_cycle.md R95). -/
structure SameCounts (s t : State) : Prop where
  instrCount : t.instrCount = s.instrCount
  callCount : t.callCount = s.callCount

/-- The status block after a completed instruction that neither calls nor halts. -/
structure Completed (s t : State) : Prop where
  counted : InstrCounted s t
  callCount : t.callCount = s.callCount
  run : SameRun s t

/-- `t` is FAULTED with the record of `cause` raised by the instruction at `pc0` (60_exceptions.md R135), its code
as 60_exceptions.md R128 gives it. -/
structure FaultedWith (code : BitVec 3) (pc0 : Word) (t : State) : Prop where
  runState : t.runState = .faulted
  code : t.faultCause.code = code
  faultPc : t.faultPc = pc0
  faultIr : t.faultIr = t.ir

/-- The step from `s` to `t` faulted after its fetch with nothing else changed: IR is the fetched Word, PC is
pc0 + 1, and AC, GR, memory, stack and counters are as before (60_exceptions.md R129 to R132). -/
structure FetchedOnly (s t : State) : Prop where
  ir : t.ir = Cells.read s.mem s.pc.toNat
  pc : t.pc = s.pc + 1#16
  ac : t.ac = s.ac
  gr : t.gr = s.gr
  mem : t.mem = s.mem
  stack : SameStack s t
  counts : SameCounts s t

/-- The words whose bits [15:12] are those of `top` are exactly the ones that decode to the constructor `c` with
the word's own field, and `c a` encodes to `top | a` (30_encoding.md R74, R76). -/
def EncodedAs (top : Word) (c : Addr → Instr) : Prop :=
  (∀ w : Word, w &&& 0xF000#16 = top ↔ decode w = .instr (c (decodeAddress w))) ∧
    ∀ a : Addr, encode (c a) = top ||| a.setWidth 16

end Sys2Proof.Machine
end

