-- ==== Sys2Proof/Certificates/Slice0/Obligations.lean ====
section
/-! DEFINITION. The statements about the machine, one per rule or group of rules of spec/. -/

open Sys2Proof Sys2Proof.Machine

/-! ## Encoding -/

/-- Words written out from the decoder vectors of 95_test_vectors.md section 2.1 decode to what the table says. -/
def Obligations.SpecVectorsDecode : Prop :=
  decode 0x1940#16 = .instr (.loadAcMem 0x940#12) ∧ decode 0x2003#16 = .instr (.storeAcMem 0x003#12) ∧
  decode 0x3ABC#16 = .instr (.loadAcReg 0xABC#12) ∧ decode 0x5300#16 = .instr (.addAcMem 0x300#12) ∧
  decode 0x6FFF#16 = .instr (.loadRegOperand 0xFFF#12) ∧ decode 0xABCD#16 = .instr (.divAcReg 0xBCD#12) ∧
  decode 0xB200#16 = .instr (.jumpToSubrout 0x200#12) ∧ decode 0xC000#16 = .instr (.retFrmSubrout 0x000#12) ∧
  decode 0xFFFF#16 = .instr (.halt 0xFFF#12) ∧ decode 0x0FFF#16 = .unrecognizedOpcode 0x0#4 ∧
  decode 0xD123#16 = .unrecognizedOpcode 0xD#4 ∧ decode 0xE000#16 = .unrecognizedOpcode 0xE#4

/-- Decoding inverts encoding, for every instruction and every value of its field (30_encoding.md section 1). -/
def Obligations.DecodeInvertsEncode : Prop :=
  ∀ i : Instr, i.wellFormed = true ∧ decode (encode i) = .instr i

/-- Encoding inverts decoding: no bit of an instruction's Word is dropped, unused fields included. -/
def Obligations.EncodeInvertsDecode : Prop :=
  ∀ (w : Word) (i : Instr), decode w = .instr i → encode i = w

/-- 30_encoding.md R73 and R74 whole: the two field functions by their shift and mask, total on every Word; the
encoding by its shift and or; both round trips. -/
def Obligations.FieldsRoundTrip : Prop :=
  (∀ w : Word, (decodeOpcode w).toNat = (w.toNat >>> 12) &&& 0xF ∧ (decodeAddress w).toNat = w.toNat &&& 0xFFF) ∧
  (∀ (o : Opcode) (a : Addr), (encodeFields o a).toNat = (o.toNat <<< 12) ||| a.toNat) ∧
  (∀ w : Word, encodeFields (decodeOpcode w) (decodeAddress w) = w) ∧
  (∀ (o : Opcode) (a : Addr), decodeOpcode (encodeFields o a) = o ∧ decodeAddress (encodeFields o a) = a)

/-- The opcode table (30_encoding.md R76, and R82's one outcome per Word): bits [15:12] alone select the
instruction, and exactly the opcodes 0x0, 0xD, 0xE are illegal, which is what the decoder's `valid` says (R43). -/
def Obligations.OpcodeSelectsInstruction : Prop :=
  EncodedAs 0x1000#16 .loadAcMem ∧ EncodedAs 0x2000#16 .storeAcMem ∧ EncodedAs 0x3000#16 .loadAcReg ∧
  EncodedAs 0x4000#16 .storeAcReg ∧ EncodedAs 0x5000#16 .addAcMem ∧ EncodedAs 0x6000#16 .loadRegOperand ∧
  EncodedAs 0x7000#16 .addAcReg ∧ EncodedAs 0x8000#16 .multAcReg ∧ EncodedAs 0x9000#16 .subtAcReg ∧
  EncodedAs 0xA000#16 .divAcReg ∧ EncodedAs 0xB000#16 .jumpToSubrout ∧ EncodedAs 0xC000#16 .retFrmSubrout ∧
  EncodedAs 0xF000#16 .halt ∧
  ∀ w : Word,
    (decode w = .unrecognizedOpcode (decodeOpcode w) ↔
      decodeOpcode w = 0x0#4 ∨ decodeOpcode w = 0xD#4 ∨ decodeOpcode w = 0xE#4) ∧
    ((instructionDecoder w).valid = true ↔ ∃ i, decode w = .instr i)

/-- 30_encoding.md R78 whole: the eight instructions with an unused field act the same for all its 4096 values;
LOAD_AC_REG's encoding by mask and match; the assembler writes zero there. -/
def Obligations.UnusedFieldIgnored : Prop :=
  (∀ (a b : Addr) (s : State),
    ∀ c ∈ [Instr.loadAcReg, Instr.storeAcReg, Instr.addAcReg, Instr.multAcReg, Instr.subtAcReg, Instr.divAcReg,
        Instr.retFrmSubrout, Instr.halt],
      exec (c a) s = exec (c b) s ∧ emits (c a) s = emits (c b) s) ∧
  EncodedAs 0x3000#16 .loadAcReg ∧
  ∀ (labels : List (List Char × Nat)) (a : Addr),
    ∀ c ∈ [Instr.loadAcReg, Instr.storeAcReg, Instr.addAcReg, Instr.multAcReg, Instr.subtAcReg, Instr.divAcReg,
        Instr.retFrmSubrout, Instr.halt],
      asmOpWord labels (c a).opcode none = .ok (encode (c 0#12))

/-! ## Data transfer -/

/-- LOAD_AC_MEM, 41_transfer.md R104 whole: encoding, effect, frame, and its corner cases (a cell that memory does
not list gives 0x0000; at its own address it loads its own word). -/
def Obligations.LoadAcMemLoadsCell : Prop :=
  EncodedAs 0x1000#16 .loadAcMem ∧
  (∀ (a : Addr) (s : State), ∃ t, exec (.loadAcMem a) s = .next t ∧
    t.ac = Cells.read s.mem a.toNat ∧ SameRegsExcept [.ac] s t ∧ t.mem = s.mem ∧ SameStack s t ∧ Completed s t ∧
    (a.toNat ∉ s.mem.map Prod.fst → t.ac = 0x0000#16)) ∧
  (∀ (a : Addr) (s : State), s.runState = .running → s.pc = a.setWidth 16 →
    Cells.read s.mem a.toNat = 0x1000#16 ||| a.setWidth 16 →
    ∃ t, step s = .next t ∧ t.ac = 0x1000#16 ||| a.setWidth 16)

/-- STORE_AC_MEM, 41_transfer.md R105 whole: encoding, effect on the one cell, frame on every other cell and on
every register; in a step the store reaches its own address too, and the fetched instruction still completes;
LOAD_AC_MEM and then STORE_AC_MEM to one address leave memory unchanged; a store to the cell at PC is what the
next step fetches. -/
def Obligations.StoreAcMemWritesCell : Prop :=
  EncodedAs 0x2000#16 .storeAcMem ∧
  (∀ (a : Addr) (s : State), Memory.wf s.mem = true → ∃ t, exec (.storeAcMem a) s = .next t ∧
    Cells.read t.mem a.toNat = s.ac ∧ (∀ b, b ≠ a.toNat → Cells.read t.mem b = Cells.read s.mem b) ∧
    SameRegsExcept [] s t ∧ SameStack s t ∧ Completed s t) ∧
  (∀ (a : Addr) (s : State), Memory.wf s.mem = true → s.nextIs (.storeAcMem a) →
    ∃ t, step s = .next t ∧ Cells.read t.mem a.toNat = s.ac ∧ t.pc = s.pc + 1#16 ∧
      (t.pc = a.setWidth 16 → fetchWord t = s.ac)) ∧
  (∀ (a : Addr) (s t u : State), Memory.wf s.mem = true → exec (.loadAcMem a) s = .next t →
    exec (.storeAcMem a) t = .next u → u.mem = s.mem)

/-- LOAD_AC_REG, 41_transfer.md R106 whole. -/
def Obligations.LoadAcRegCopiesGr : Prop :=
  EncodedAs 0x3000#16 .loadAcReg ∧
  ∀ (x : Addr) (s : State), ∃ t, exec (.loadAcReg x) s = .next t ∧
    t.ac = s.gr ∧ SameRegsExcept [.ac] s t ∧ t.mem = s.mem ∧ SameStack s t ∧ Completed s t

/-- STORE_AC_REG, 41_transfer.md R107. Its sentence "this is the only way to put a value wider than 12 bits into GR"
is read with 10_state.md R24 and 43_control.md R122, the model's reading (DEDUCED, log 15): of the other instructions,
RET_FRM_SUBROUT alone can leave a new value above 0x0FFF in GR, the GR that a call saved. -/
def Obligations.StoreAcRegCopiesAc : Prop :=
  EncodedAs 0x4000#16 .storeAcReg ∧
  (∀ (x : Addr) (s : State), ∃ t, exec (.storeAcReg x) s = .next t ∧
    t.gr = s.ac ∧ SameRegsExcept [.gr] s t ∧ t.mem = s.mem ∧ SameStack s t ∧ Completed s t) ∧
  (∀ (i : Instr) (s t : State), exec i s = .next t → t.gr ≠ s.gr → 0x0FFF < t.gr.toNat →
    (∃ x, i = .storeAcReg x) ∨ ∃ x, i = .retFrmSubrout x)

/-- LOAD_REG_OPERAND, 41_transfer.md R108 whole: the immediate is zero-extended, so GR ends in 0x0000 to 0x0FFF
with bits 15:12 zero; immediate 0 makes a DIV_AC_REG that finds that GR fault. -/
def Obligations.LoadRegOperandZeroExtends : Prop :=
  EncodedAs 0x6000#16 .loadRegOperand ∧
  (∀ (imm : Addr) (s : State), ∃ t, exec (.loadRegOperand imm) s = .next t ∧
    t.gr.toNat = imm.toNat ∧ t.gr.toNat ≤ 0x0FFF ∧ t.gr.extractLsb' 12 4 = 0#4 ∧
    SameRegsExcept [.gr] s t ∧ t.mem = s.mem ∧ SameStack s t ∧ Completed s t) ∧
  (∀ (s t u : State) (x : Addr), exec (.loadRegOperand 0#12) s = .next t → u.gr = t.gr →
    ∃ v, exec (.divAcReg x) u = .next v ∧ v.runState = .faulted ∧ v.faultCause = .divisionByZero)

/-! ## Arithmetic -/

/-- ADD_AC_MEM, 42_arithmetic.md R109 whole: the sum wraps mod 2^16, memory is only read; at its own address it
adds its own word. -/
def Obligations.AddAcMemAddsCell : Prop :=
  EncodedAs 0x5000#16 .addAcMem ∧
  (∀ (a : Addr) (s : State), ∃ t, exec (.addAcMem a) s = .next t ∧
    t.ac.toNat = (s.ac.toNat + (Cells.read s.mem a.toNat).toNat) % 2 ^ 16 ∧
    SameRegsExcept [.ac] s t ∧ t.mem = s.mem ∧ SameStack s t ∧ Completed s t) ∧
  (∀ (a : Addr) (s : State), s.runState = .running → s.pc = a.setWidth 16 →
    Cells.read s.mem a.toNat = 0x5000#16 ||| a.setWidth 16 →
    ∃ t, step s = .next t ∧ t.ac = s.ac + (0x5000#16 ||| a.setWidth 16))

/-- ADD_AC_REG, 42_arithmetic.md R110 whole; after LOAD_AC_REG it doubles GR's value into AC. -/
def Obligations.AddAcRegAddsGr : Prop :=
  EncodedAs 0x7000#16 .addAcReg ∧
  (∀ (x : Addr) (s : State), ∃ t, exec (.addAcReg x) s = .next t ∧
    t.ac.toNat = (s.ac.toNat + s.gr.toNat) % 2 ^ 16 ∧
    SameRegsExcept [.ac] s t ∧ t.mem = s.mem ∧ SameStack s t ∧ Completed s t) ∧
  (∀ (x y : Addr) (s t : State), exec (.loadAcReg x) s = .next t →
    ∃ u, exec (.addAcReg y) t = .next u ∧ u.ac.toNat = 2 * s.gr.toNat % 2 ^ 16)

/-- MULT_AC_REG, 42_arithmetic.md section 1: the low 16 bits of the product. The spec's own decision D2. -/
def Obligations.MultAcRegKeepsLowHalf : Prop :=
  EncodedAs 0x8000#16 .multAcReg ∧
  ∀ (x : Addr) (s : State), ∃ t, exec (.multAcReg x) s = .next t ∧
    t.ac.toNat = (s.ac.toNat * s.gr.toNat) % 2 ^ 16 ∧
    SameRegsExcept [.ac] s t ∧ t.mem = s.mem ∧ SameStack s t ∧ Completed s t

/-- SUBT_AC_REG, 42_arithmetic.md section 1: the difference mod 2^16, no borrow recorded. The spec's own decision D2. -/
def Obligations.SubtAcRegWraps : Prop :=
  EncodedAs 0x9000#16 .subtAcReg ∧
  ∀ (x : Addr) (s : State), ∃ t, exec (.subtAcReg x) s = .next t ∧
    (t.ac.toNat : Int) = ((s.ac.toNat : Int) - (s.gr.toNat : Int)) % 2 ^ 16 ∧
    SameRegsExcept [.ac] s t ∧ t.mem = s.mem ∧ SameStack s t ∧ Completed s t

/-- DIV_AC_REG with GR nonzero, 42_arithmetic.md sections 1 and 2: the unsigned quotient rounded down, at most AC.
The spec's own decision D3. -/
def Obligations.DivAcRegFloors : Prop :=
  EncodedAs 0xA000#16 .divAcReg ∧
  ∀ (x : Addr) (s : State), s.gr ≠ 0#16 → ∃ t, exec (.divAcReg x) s = .next t ∧
    t.ac.toNat * s.gr.toNat ≤ s.ac.toNat ∧ s.ac.toNat < (t.ac.toNat + 1) * s.gr.toNat ∧
    SameRegsExcept [.ac] s t ∧ t.mem = s.mem ∧ SameStack s t ∧ Completed s t

/-! ## Control -/

/-- JUMP_TO_SUBROUT, 43_control.md R120 whole: with whole frames on the stack and not full, the four Words in the
next four slots, PC at the target, the call counted; on a full stack StackOverflow with nothing pushed, no jump. -/
def Obligations.JumpToSubroutPushesFrame : Prop :=
  EncodedAs 0xB000#16 .jumpToSubrout ∧
  (∀ (a : Addr) (s : State), Slots.wf s.slot = true → Config.frameWords ∣ s.depth → s.depth < 1024 →
    ∃ t, exec (.jumpToSubrout a) s = .next t ∧
      Cells.read t.slot s.depth = s.pc ∧ Cells.read t.slot (s.depth + 1) = s.ir ∧
      Cells.read t.slot (s.depth + 2) = s.ac ∧ Cells.read t.slot (s.depth + 3) = s.gr ∧
      (∀ k, (k < s.depth ∨ s.depth + 4 ≤ k) → Cells.read t.slot k = Cells.read s.slot k) ∧
      t.depth = s.depth + 4 ∧ t.pc.toNat = a.toNat ∧ t.callCount.toNat = (s.callCount.toNat + 1) % 2 ^ 32 ∧
      SameRegsExcept [.pc] s t ∧ t.mem = s.mem ∧ InstrCounted s t ∧ SameRun s t) ∧
  (∀ (a : Addr) (s : State), s.depth = 1024 →
    ∃ t, exec (.jumpToSubrout a) s = .next t ∧ FaultedWith 3#3 (s.pc - 1#16) t ∧
      SameRegsExcept [] s t ∧ t.mem = s.mem ∧ SameStack s t ∧ SameCounts s t)

/-- RET_FRM_SUBROUT, 43_control.md R122 whole: the snapshot of the state before any pop, labelled with `call_count`;
with a frame on the stack the four registers from the top four slots; on an empty stack StackUnderflow; a return
right after a call restores all four registers. -/
def Obligations.RetFrmSubroutRestoresFrame : Prop :=
  EncodedAs 0xC000#16 .retFrmSubrout ∧
  (∀ (x : Addr) (s : State), emits (.retFrmSubrout x) s = [snapshotOf .ret s] ∧
    (snapshotOf .ret s).label = some s.callCount) ∧
  (∀ (x : Addr) (s : State), Config.frameWords ∣ s.depth → 0 < s.depth →
    ∃ t, exec (.retFrmSubrout x) s = .next t ∧
      t.gr = Cells.read s.slot (s.depth - 1) ∧ t.ac = Cells.read s.slot (s.depth - 2) ∧
      t.ir = Cells.read s.slot (s.depth - 3) ∧ t.pc = Cells.read s.slot (s.depth - 4) ∧
      t.depth = s.depth - 4 ∧ t.slot = s.slot ∧ t.mem = s.mem ∧ Completed s t) ∧
  (∀ (x : Addr) (s : State), s.depth = 0 →
    ∃ t, exec (.retFrmSubrout x) s = .next t ∧ FaultedWith 4#3 (s.pc - 1#16) t ∧
      SameRegsExcept [] s t ∧ t.mem = s.mem ∧ SameStack s t ∧ SameCounts s t) ∧
  (∀ (a x : Addr) (s t : State), Slots.wf s.slot = true → Config.frameWords ∣ s.depth → s.depth < 1024 →
    exec (.jumpToSubrout a) s = .next t →
    ∃ u, exec (.retFrmSubrout x) t = .next u ∧ SameRegsExcept [] s u ∧ u.depth = s.depth ∧ u.mem = s.mem)

/-- HALT, 43_control.md R124 whole: the snapshot, the count, HALTED, nothing else changed; HALTED has no step. -/
def Obligations.HaltStopsTheCore : Prop :=
  EncodedAs 0xF000#16 .halt ∧
  ∀ (x : Addr) (s : State), ∃ t, exec (.halt x) s = .next t ∧ t.runState = .halted ∧
    emits (.halt x) s = [snapshotOf .halt s] ∧ (snapshotOf .halt s).label = none ∧
    SameRegsExcept [] s t ∧ t.mem = s.mem ∧ SameStack s t ∧ InstrCounted s t ∧ t.callCount = s.callCount ∧
    t.faultCause = s.faultCause ∧ t.faultPc = s.faultPc ∧ t.faultIr = s.faultIr ∧
    step t = .fault .halted

/-- A call saves and its return restores all four registers, whatever ran between on the same stack and memory
(43_control.md sections 1 and 4, 95_test_vectors.md L1-3). -/
def Obligations.ReturnUndoesCall : Prop :=
  ∀ (a x : Addr) (s t u : State), Slots.wf s.slot = true → Config.frameWords ∣ s.depth → s.depth < 1024 →
    exec (.jumpToSubrout a) s = .next t → u.depth = t.depth →
    (∀ k, k < t.depth → Cells.read u.slot k = Cells.read t.slot k) →
    ∃ v, exec (.retFrmSubrout x) u = .next v ∧ SameRegsExcept [] s v ∧ v.depth = s.depth ∧ v.mem = u.mem ∧
      ∀ k, k < s.depth → Cells.read v.slot k = Cells.read s.slot k

/-! ## The step -/

/-- A step runs the decoded instruction: when the Word at PC decodes to `i`, the step is `exec i` from the state in
which only IR and PC have changed, and its events are those of `i` there (40_execution_cycle.md; R90, R92, R93, R102). -/
def Obligations.StepRunsDecodedInstruction : Prop :=
  ∀ (s : State) (i : Instr), s.nextIs i →
    step s = exec i (fetch s) ∧ stepEmits s = emits i (fetch s) ∧
    (fetch s).ir = Cells.read s.mem s.pc.toNat ∧ (fetch s).pc.toNat = s.pc.toNat + 1 ∧
    SameRegsExcept [.ir, .pc] s (fetch s) ∧ (fetch s).mem = s.mem ∧ SameStack s (fetch s) ∧
    SameCounts s (fetch s) ∧ SameRun s (fetch s)

/-- Fetch, 40_execution_cycle.md R90 whole: on `PC[15:12]` nonzero FetchOutOfRange is raised; otherwise IR gets
`MemRead(PC[11:0])` and PC gets PC + 1, at most 0x1000, and the cycle goes on from there. -/
def Obligations.FetchReadsCellAtPc : Prop :=
  ∀ s : State, s.runState = .running →
    (s.pc.extractLsb' 12 4 ≠ 0#4 → ∃ t, step s = .next t ∧ FaultedWith 5#3 s.pc t) ∧
    (s.pc.extractLsb' 12 4 = 0#4 → step s = decodeAndExec (fetch s) ∧
      (fetch s).ir = s.memRead (s.pc.extractLsb' 0 12) ∧
      (fetch s).pc.toNat = (s.pc.toNat + 1) % 2 ^ 16 ∧ (fetch s).pc.toNat ≤ 0x1000)

/-- FetchOutOfRange (40_execution_cycle.md R91, 60_exceptions.md R133, the spec's own decision D4): exactly for
PC >= 0x1000; nothing but the fault record and `run_state` changes, IR and PC included, and no event. -/
def Obligations.FetchOutOfRangeFaults : Prop :=
  ∀ s : State, s.runState = .running → 0x1000 ≤ s.pc.toNat →
    ∃ t, step s = .next t ∧ FaultedWith 5#3 s.pc t ∧ t.faultIr = s.ir ∧ SameRegsExcept [] s t ∧ t.mem = s.mem ∧
      SameStack s t ∧ SameCounts s t ∧ stepEmits s = []

/-- UnrecognizedOpcode, 60_exceptions.md R129 and 30_encoding.md R79: whatever bits [11:0] are; after the fetch and
before any other effect; the reported opcode is `fault_ir[15:12]`; no event. -/
def Obligations.IllegalOpcodeFaults : Prop :=
  ∀ s : State, s.runState = .running → s.pc.toNat < 0x1000 →
    ((Cells.read s.mem s.pc.toNat).extractLsb' 12 4 = 0x0#4 ∨ (Cells.read s.mem s.pc.toNat).extractLsb' 12 4 = 0xD#4 ∨
      (Cells.read s.mem s.pc.toNat).extractLsb' 12 4 = 0xE#4) →
    ∃ t, step s = .next t ∧ FaultedWith 1#3 s.pc t ∧ FetchedOnly s t ∧ stepEmits s = [] ∧
      t.faultIr.extractLsb' 12 4 = (Cells.read s.mem s.pc.toNat).extractLsb' 12 4 ∧ step t = .fault .faulted

/-- DivisionByZero, 60_exceptions.md R130 whole. -/
def Obligations.DivisionByZeroFaults : Prop :=
  ∀ (x : Addr) (s : State), s.nextIs (.divAcReg x) → s.gr = 0#16 →
    ∃ t, step s = .next t ∧ FaultedWith 2#3 s.pc t ∧ FetchedOnly s t ∧ stepEmits s = []

/-- StackOverflow, 60_exceptions.md R131 whole: at 256 frames, and among whole-frame depths at no fewer. -/
def Obligations.StackOverflowFaults : Prop :=
  (∀ (a : Addr) (s : State), s.nextIs (.jumpToSubrout a) → s.depth = 4 * 256 →
    ∃ t, step s = .next t ∧ FaultedWith 3#3 s.pc t ∧ FetchedOnly s t ∧ stepEmits s = []) ∧
  (∀ (a : Addr) (s : State) (n : Nat), s.nextIs (.jumpToSubrout a) → s.depth = 4 * n → n < 256 →
    ∃ t, step s = .next t ∧ t.runState = .running ∧ t.depth = 4 * (n + 1))

/-- StackUnderflow (60_exceptions.md R132, 43_control.md R123, the spec's own decision D5): after the snapshot, which
shows the registers after the fetch and an empty stack. -/
def Obligations.StackUnderflowFaults : Prop :=
  ∀ (x : Addr) (s : State), s.nextIs (.retFrmSubrout x) → s.depth = 0 →
    ∃ t, step s = .next t ∧ FaultedWith 4#3 s.pc t ∧ FetchedOnly s t ∧
      ∃ e, stepEmits s = [e] ∧ e.kind = .ret ∧ e.label = some s.callCount ∧ e.stack = [] ∧
        e.pc = s.pc + 1#16 ∧ e.ir = Cells.read s.mem s.pc.toNat ∧ e.instrCount = s.instrCount

/-- 40_execution_cycle.md R98 whole: IDLE, HALTED and FAULTED have no step and no event; only `reset` leaves HALTED
and FAULTED; IDLE is left only by `run()`. -/
def Obligations.OnlyRunningSteps : Prop :=
  (∀ s : State, s.runState ≠ .running → stepEmits s = [] ∧ ∀ t, step s ≠ .next t) ∧
  (∀ (c : HostCommand) (s : State), s.runState = .halted ∨ s.runState = .faulted →
    (hostApply c s).state = s ∨ (c = .reset ∧ (hostApply c s).state.runState = .idle)) ∧
  (∀ (c : HostCommand) (s : State), s.runState = .idle → (hostApply c s).state.runState ≠ .idle → c = .run)

/-- 40_execution_cycle.md R97 whole, over whole-frame depths: a RUNNING state has exactly one outcome; it is FAULTED
exactly on the five fatal conditions, HALTED exactly on HALT, RUNNING otherwise; one event for a RET_FRM_SUBROUT,
completed or underflowing, one for HALT, none otherwise. -/
def Obligations.RunningStepOutcomes : Prop :=
  ∀ s : State, s.runState = .running → s.depth ≤ 1024 → Config.frameWords ∣ s.depth →
    ∃ t, step s = .next t ∧
      (t.runState = .faulted ↔
        0x1000 ≤ s.pc.toNat ∨
        (s.pc.toNat < 0x1000 ∧ ∃ o, decode (Cells.read s.mem s.pc.toNat) = .unrecognizedOpcode o) ∨
        (∃ x, s.nextIs (.divAcReg x) ∧ s.gr = 0#16) ∨
        (∃ x, s.nextIs (.jumpToSubrout x) ∧ s.depth = 1024) ∨
        (∃ x, s.nextIs (.retFrmSubrout x) ∧ s.depth = 0)) ∧
      (t.runState = .halted ↔ ∃ x, s.nextIs (.halt x)) ∧
      t.runState ≠ .idle ∧
      ((∃ x, s.nextIs (.retFrmSubrout x)) → (stepEmits s).map Snapshot.kind = [.ret]) ∧
      ((∃ x, s.nextIs (.halt x)) → (stepEmits s).map Snapshot.kind = [.halt]) ∧
      ((∀ x, ¬ s.nextIs (.retFrmSubrout x) ∧ ¬ s.nextIs (.halt x)) → stepEmits s = [])

/-- `instr_count` (40_execution_cycle.md R94, R95, the spec's own decision D12): one more mod 2^32 after every
instruction that completes, HALT included; unchanged after one that faults; and a snapshot shows the count of before. -/
def Obligations.InstrCountRule : Prop :=
  ∀ s t : State, s.runState = .running → step s = .next t →
    (t.runState = .faulted → t.instrCount = s.instrCount) ∧
    (t.runState ≠ .faulted → t.instrCount.toNat = (s.instrCount.toNat + 1) % 2 ^ 32) ∧
    ∀ e ∈ stepEmits s, e.instrCount = s.instrCount

/-- `call_count`, 40_execution_cycle.md R96 whole: one more mod 2^32 per JUMP_TO_SUBROUT that completes, at no other
time, and never decremented. -/
def Obligations.CallCountRule : Prop :=
  ∀ s t : State, step s = .next t →
    ((∃ a, s.nextIs (.jumpToSubrout a)) ∧ t.runState ≠ .faulted →
      t.callCount.toNat = (s.callCount.toNat + 1) % 2 ^ 32) ∧
    (¬ ((∃ a, s.nextIs (.jumpToSubrout a)) ∧ t.runState ≠ .faulted) → t.callCount = s.callCount)

/-- Fault entry (60_exceptions.md R135, R136, the spec's own decision D9), over whole-frame depths: a step that
faults records a cause, its own address and IR, and changes nothing else but what its fetch did; a step that does
not fault leaves the record alone. -/
def Obligations.FaultEntryIsPrecise : Prop :=
  ∀ s t : State, Config.frameWords ∣ s.depth → s.depth ≤ 1024 → step s = .next t →
    (t.runState = .faulted →
      t.faultCause ≠ .noFault ∧ t.faultPc = s.pc ∧ t.faultIr = t.ir ∧ t.ac = s.ac ∧ t.gr = s.gr ∧ t.mem = s.mem ∧
      SameStack s t ∧ SameCounts s t ∧
      ((t.ir = s.ir ∧ t.pc = s.pc ∧ t.faultCause = .fetchOutOfRange) ∨
        (t.ir = Cells.read s.mem s.pc.toNat ∧ t.pc = s.pc + 1#16 ∧ t.faultCause ≠ .fetchOutOfRange))) ∧
    (t.runState ≠ .faulted → t.faultCause = s.faultCause ∧ t.faultPc = s.faultPc ∧ t.faultIr = s.faultIr)

/-- The writers of memory (10_state.md section 2, 20_memory.md section 2): in a run only STORE_AC_MEM, and only the
cell it names; of the host's operations only `load_word`, only the cell it names, and `reset`. -/
def Obligations.OnlyStoresWriteMemory : Prop :=
  (∀ s t : State, step s = .next t → (∀ a, ¬ s.nextIs (.storeAcMem a)) → t.mem = s.mem) ∧
  (∀ (a : Addr) (s t : State), step s = .next t → s.nextIs (.storeAcMem a) →
    ∀ b, b ≠ a.toNat → Cells.read t.mem b = Cells.read s.mem b) ∧
  (∀ (c : HostCommand) (s : State) (b : Nat), c ≠ .reset → (∀ v, c ≠ .loadWord b v) →
    Cells.read (hostApply c s).state.mem b = Cells.read s.mem b)

/-- The execution stack and PC change otherwise than by the fetch only in JUMP_TO_SUBROUT and RET_FRM_SUBROUT
(10_state.md section 3, 43_control.md section 1). -/
def Obligations.OnlyCallAndReturnMoveStackAndPc : Prop :=
  ∀ s t : State, step s = .next t → s.pc.toNat < 0x1000 →
    (∀ a, ¬ s.nextIs (.jumpToSubrout a)) → (∀ x, ¬ s.nextIs (.retFrmSubrout x)) →
    SameStack s t ∧ t.pc = s.pc + 1#16

/-- The W entries of the register access table (10_state.md section 1, R26): a register that an instruction's row
does not mark W keeps its value. -/
def Obligations.UnlistedRegistersUnwritten : Prop :=
  ∀ (i : Instr) (s t : State) (r : Reg), exec i s = .next t → regWrites i r = false → t.readReg r = s.readReg r

/-- The R entries of the register access table for AC and GR (10_state.md section 1, R26): a register that an
instruction's row does not mark R does not influence it. -/
def Obligations.UnlistedRegistersUnread : Prop :=
  ∀ (i : Instr) (s t : State) (r : Reg) (v : Word), (r = .ac ∨ r = .gr) → regReads i r = false →
    exec i s = .next t →
    exec i (s.writeReg r v) = .next (if regWrites i r then t else t.writeReg r v) ∧
      emits i (s.writeReg r v) = emits i s

/-- A store is seen by the very next fetch, with nothing between (20_memory.md section 5, 70_reset_and_hazards.md
section 4): a STORE_AC_MEM to the next cell makes the stored Word the next instruction. -/
def Obligations.StoreSeenByNextFetch : Prop :=
  ∀ (a : Addr) (s : State) (i : Instr), Memory.wf s.mem = true → s.nextIs (.storeAcMem a) →
    a.toNat = s.pc.toNat + 1 → decode s.ac = .instr i → ∃ t, step s = .next t ∧ t.nextIs i

/-! ## Stack, snapshots -/

/-- `Push`, 10_state.md R33 whole: the rule, and from an empty stack 1024 pushes succeed and one more overflows. -/
def Obligations.PushCapacityIs1024 : Prop :=
  (∀ (v : Word) (s : State), s.depth = 1024 → push v s = .error ⟨.stackOverflow, s⟩) ∧
  (∀ (v : Word) (s : State), Slots.wf s.slot = true → s.depth < 1024 →
    ∃ t, push v s = .ok t ∧ Cells.read t.slot s.depth = v ∧
      (∀ k, k ≠ s.depth → Cells.read t.slot k = Cells.read s.slot k) ∧
      t.depth = s.depth + 1 ∧ 1024 - t.depth = 1024 - s.depth - 1 ∧
      SameRegsExcept [] s t ∧ t.mem = s.mem ∧ SameCounts s t ∧ SameRun s t) ∧
  (∀ (vs : List Word) (s : State), s.depth = 0 → vs.length = 1024 →
    ∃ t, vs.foldlM (fun s v => push v s) s = .ok t ∧ t.depth = 1024 ∧
      ∀ w, push w t = .error ⟨.stackOverflow, t⟩)

/-- `Pop` (10_state.md R34, the spec's own decision D5): fatal on an empty stack; otherwise it gives the last Word
pushed, frees one slot and leaves its Word there. -/
def Obligations.PopGivesLastPushed : Prop :=
  (∀ (r : Reg) (s : State), s.depth = 0 → popInto r s = .error ⟨.stackUnderflow, s⟩) ∧
  (∀ (r : Reg) (v : Word) (s t : State), Slots.wf s.slot = true → push v s = .ok t →
    ∃ u, popInto r t = .ok u ∧ u.readReg r = v ∧ SameRegsExcept [r] s u ∧ u.depth = s.depth ∧ u.slot = t.slot ∧
      u.mem = s.mem ∧ SameCounts s u ∧ SameRun s u)

/-- The diagnostic view, 10_state.md R35: every occupied slot from top to bottom with its number and value, and
nothing else; empty at depth 0. That it writes no state is its form: a function from the state to a list. -/
def Obligations.StackViewListsOccupiedSlots : Prop :=
  ∀ s : State, (stackView s).length = s.depth ∧
    (∀ k, k < s.depth → (stackView s)[k]? = some (s.depth - 1 - k, Cells.read s.slot (s.depth - 1 - k))) ∧
    (s.depth = 0 → stackView s = [])

/-- The execution_stack block (10_state.md R42, the spec's own port list D25): its outputs, and one push or one pop
as R33 and R34 say. What the ports carry with both enables high, and `pop_data` at depth 0, is the model's choice
(log 14), and no clause speaks of it. -/
def Obligations.ExecutionStackPorts : Prop :=
  ∀ (slot : Cells) (depth : Nat) (inp : StackIn), Slots.wf slot = true → depth ≤ 1024 →
    ¬ (inp.pushEn = true ∧ inp.popEn = true) →
    (executionStack slot depth inp).depth.toNat = depth ∧
    ((executionStack slot depth inp).overflow = true ↔ inp.pushEn = true ∧ depth = 1024) ∧
    ((executionStack slot depth inp).underflow = true ↔ inp.popEn = true ∧ depth = 0) ∧
    (executionStack slot depth inp).view = (List.range depth).reverse.map (fun k => (k, Cells.read slot k)) ∧
    (inp.pushEn = true → depth < 1024 →
      (executionStack slot depth inp).depthNext = depth + 1 ∧
      Cells.read (executionStack slot depth inp).slotNext depth = inp.pushData ∧
      ∀ k, k ≠ depth → Cells.read (executionStack slot depth inp).slotNext k = Cells.read slot k) ∧
    (inp.popEn = true → 0 < depth →
      (executionStack slot depth inp).popData = Cells.read slot (depth - 1) ∧
      (executionStack slot depth inp).depthNext = depth - 1 ∧ (executionStack slot depth inp).slotNext = slot) ∧
    ((executionStack slot depth inp).overflow = true ∨ (executionStack slot depth inp).underflow = true ∨
        (inp.pushEn = false ∧ inp.popEn = false) →
      (executionStack slot depth inp).depthNext = depth ∧ (executionStack slot depth inp).slotNext = slot)

/-- The snapshot record (43_control.md section 3; the spec's own decisions D13, D22): its fields at the moment of
the `emit` of RET_FRM_SUBROUT or HALT at PC, where PC = pc0 + 1 and IR is the instruction's own word. -/
def Obligations.SnapshotShowsStateAfterFetch : Prop :=
  ∀ (s : State) (e : Snapshot), s.runState = .running → e ∈ stepEmits s →
    stepEmits s = [e] ∧ e.pc = s.pc + 1#16 ∧ e.ir = Cells.read s.mem s.pc.toNat ∧ e.ac = s.ac ∧ e.gr = s.gr ∧
    e.stack = stackView s ∧ e.instrCount = s.instrCount ∧
    e.window = [Cells.read s.mem 0x940, Cells.read s.mem 0x941, Cells.read s.mem 0x942] ∧
    (e.kind = .ret → e.label = some s.callCount) ∧ (e.kind = .halt → e.label = none)

/-! ## Invariants, runs, whole-machine rules -/

/-- The invariant holds at reset (10_state.md section 6). -/
def Obligations.ResetMeetsInvariant : Prop := State.reset.Inv

/-- Every step keeps the invariant: canonical memory and slots, whole frames within the stack, every live frame a
saved JUMP_TO_SUBROUT with a return address a fetch produced, a fault recorded exactly in FAULTED. -/
def Obligations.StepKeepsInvariant : Prop :=
  ∀ s t : State, s.Inv → step s = .next t → t.Inv

/-- Every operation of the host keeps the invariant. -/
def Obligations.HostKeepsInvariant : Prop :=
  ∀ (c : HostCommand) (s : State), s.Inv → (hostApply c s).state.Inv

/-- Every run ends (70_reset_and_hazards.md section 5): from any RUNNING state that meets the invariant the core is
HALTED or FAULTED after at most 4097^257 steps, which is below the spec's bound T(0). -/
def Obligations.EveryRunEnds : Prop :=
  ∀ s : State, s.Inv → s.runState = .running →
    ∃ n, n ≤ 4097 ^ (Config.maxNesting + 1) ∧ stopped (runFor n s).1 = true

/-- Once stopped a run stays where it is and emits nothing more, so a run has one end (40_execution_cycle.md
section on outcomes, 70_reset_and_hazards.md section 5); and a run of m + n steps is a run of m, then of n. -/
def Obligations.RunHasOneEnd : Prop :=
  (∀ (n : Nat) (s : State), s.runState ≠ .running → runFor n s = (s, [])) ∧
  (∀ (m n : Nat) (s : State), runFor (m + n) s =
    ((runFor n (runFor m s).1).1, (runFor m s).2 ++ (runFor n (runFor m s).1).2))

/-- No program can see the counters, the fault record or the Words of popped slots (10_state.md sections 3, 4 and 6):
two RUNNING states that agree on registers, memory and occupied slots step alike, agree again, record the same
fault if they fault, and emit the same snapshots but for the two counters in them. -/
def Obligations.StatusAndStaleSlotsInvisible : Prop :=
  ∀ s t s' : State, s.Inv → t.Inv → s.runState = .running → t.runState = .running → SameForPrograms s t →
    step s = .next s' → ∃ t', step t = .next t' ∧ SameForPrograms s' t' ∧ s'.runState = t'.runState ∧
      (s'.runState = .faulted →
        s'.faultCause = t'.faultCause ∧ s'.faultPc = t'.faultPc ∧ s'.faultIr = t'.faultIr) ∧
      (stepEmits s).map (fun e => { e with label := none, instrCount := 0#32 }) =
        (stepEmits t).map (fun e => { e with label := none, instrCount := 0#32 })

/-- The datapath of the blocks (10_state.md section 5) is the step: from every RUNNING state that meets the invariant
both give the same next state and the same events. How the blocks are joined is the model's (log 12). -/
def Obligations.DatapathIsStep : Prop :=
  ∀ s : State, s.Inv → s.runState = .running →
    step s = .next (datapathStep s) ∧ stepEmits s = datapathEmits s

/-! ## Reset and the host -/

/-- `reset` in every run state gives the table of 10_state.md section 6 (R49, the spec's own decision D7). -/
def Obligations.ResetGivesTable : Prop :=
  ∀ s t : State, (hostReset s).state = t →
    (hostReset s).accepted = true ∧ t.ac = 0#16 ∧ t.ir = 0#16 ∧ t.pc = 0#16 ∧ t.gr = 0#16 ∧
    (∀ a, Cells.read t.mem a = 0#16) ∧ (∀ k, Cells.read t.slot k = 0#16) ∧ t.depth = 0 ∧
    t.instrCount = 0#32 ∧ t.callCount = 0#32 ∧ t.runState.code = 0#2 ∧ t.faultCause.code = 0#3 ∧
    t.faultPc = 0#16 ∧ t.faultIr = 0#16

/-- `load_word`, `set_pc` and `run()` (70_reset_and_hazards.md section 2; the spec's own decisions D8, D21, D24):
accepted exactly in IDLE and in range, with their one effect; refused otherwise with no state change. -/
def Obligations.HostOperationsOnlyInIdle : Prop :=
  (∀ (a v : Nat) (s : State), Memory.wf s.mem = true → s.runState = .idle → a ≤ 0xFFF → v ≤ 0xFFFF →
    (hostLoadWord a v s).accepted = true ∧ (Cells.read (hostLoadWord a v s).state.mem a).toNat = v ∧
    (∀ b, b ≠ a → Cells.read (hostLoadWord a v s).state.mem b = Cells.read s.mem b) ∧
    SameRegsExcept [] s (hostLoadWord a v s).state ∧ SameStack s (hostLoadWord a v s).state ∧
    SameRun s (hostLoadWord a v s).state ∧ SameCounts s (hostLoadWord a v s).state) ∧
  (∀ (a v : Nat) (s : State), s.runState ≠ .idle ∨ 0xFFF < a ∨ 0xFFFF < v → hostLoadWord a v s = ⟨s, false⟩) ∧
  (∀ (v : Word) (s : State), s.runState = .idle → hostSetPc v s = ⟨{ s with pc := v }, true⟩) ∧
  (∀ s : State, s.runState = .idle → hostRun s = ⟨{ s with runState := .running }, true⟩) ∧
  (∀ (v : Word) (s : State), s.runState ≠ .idle → hostSetPc v s = ⟨s, false⟩ ∧ hostRun s = ⟨s, false⟩)

/-- The boot order (70_reset_and_hazards.md section 3): from any state, after reset, the image's Words, `set_pc` and
`run()`, the core is RUNNING at the entry with every cell holding the last Word loaded there, or 0x0000. -/
def Obligations.BootLoadsImage : Prop :=
  ∀ (image : List (Nat × Nat)) (entry : Word) (s t : State), (∀ p ∈ image, p.1 ≤ 0xFFF ∧ p.2 ≤ 0xFFFF) →
    hostApplyAll (bootCommands image entry) s = t →
    t.runState = .running ∧ t.pc = entry ∧ t.depth = 0 ∧ t.ac = 0#16 ∧ t.gr = 0#16 ∧
    ∀ a, (Cells.read t.mem a).toNat = (image.reverse.lookup a).getD 0

/-! ## Assembler -/

/-- An instruction line assembles to `encode(opcode, operand)`, a mnemonic alone to `encode(opcode, 0)`; an operand
outside 0 to 0xFFF is an error (30_encoding.md section 4; the spec's own decisions D6, D20); what is assembled under
a mnemonic of the table decodes to an instruction of that opcode. -/
def Obligations.AssemblerEncodesOperands : Prop :=
  (∀ (o : Opcode) (n : Nat), takesOperand o = true → 0xFFF < n →
    asmOpWord [] o (some (.number n)) = .error .outOfRange) ∧
  (∀ (o : Opcode) (n : Nat), takesOperand o = true → n ≤ 0xFFF →
    ∃ w i, asmOpWord [] o (some (.number n)) = .ok w ∧ w.toNat = o.toNat * 4096 + n ∧ decode w = .instr i ∧
      i.opcode = o ∧ i.operand.toNat = n) ∧
  (∀ p ∈ asmMnemonics, takesOperand p.2 = false →
    ∃ w i, asmOpWord [] p.2 none = .ok w ∧ w.toNat = p.2.toNat * 4096 ∧ decode w = .instr i ∧ i.opcode = p.2)
end

