-- ==== Sys2Proof/Laws/Cells.lean ====
section
/-! SUPPORT. The laws of a store in canonical form: a read after a write, the form is kept, and equal contents
are equal data. -/

namespace Sys2Proof.Machine

@[simp] theorem Cells.read_nil (a : Nat) : Cells.read [] a = Config.resetWord := rfl

theorem Cells.read_cons (k a : Nat) (w : Word) (m : Cells) :
    Cells.read ((k, w) :: m) a = if a = k then w else Cells.read m a := rfl

/-- An address below every listed one reads as the reset value. -/
theorem Cells.read_below {size : Nat} : ∀ {lo : Nat} {m : Cells} {a : Nat},
    Cells.wfFrom size lo m = true → a < lo → Cells.read m a = Config.resetWord
  | _, [], _, _, _ => rfl
  | lo, (k, w) :: m, a, h, ha => by
    simp only [Cells.wfFrom, Bool.and_eq_true, decide_eq_true_eq] at h
    obtain ⟨⟨⟨hk, -⟩, -⟩, ht⟩ := h
    rw [Cells.read_cons, if_neg (by omega)]
    exact Cells.read_below ht (by omega)

/-- An address at or above the size reads as the reset value: nothing is listed there. -/
theorem Cells.read_beyond {size : Nat} : ∀ {lo : Nat} {m : Cells} {a : Nat},
    Cells.wfFrom size lo m = true → size ≤ a → Cells.read m a = Config.resetWord
  | _, [], _, _, _ => rfl
  | lo, (k, w) :: m, a, h, ha => by
    simp only [Cells.wfFrom, Bool.and_eq_true, decide_eq_true_eq] at h
    obtain ⟨⟨⟨-, hk⟩, -⟩, ht⟩ := h
    rw [Cells.read_cons, if_neg (by omega)]
    exact Cells.read_beyond ht ha

/-- A lower bound of the listed addresses may be lowered. -/
theorem Cells.wfFrom_mono {size lo lo' : Nat} {m : Cells} (hl : lo' ≤ lo)
    (h : Cells.wfFrom size lo m = true) : Cells.wfFrom size lo' m = true := by
  cases m with
  | nil => rfl
  | cons c m =>
    obtain ⟨k, w⟩ := c
    simp only [Cells.wfFrom, Bool.and_eq_true, decide_eq_true_eq] at h ⊢
    exact ⟨⟨⟨by omega, h.1.1.2⟩, h.1.2⟩, h.2⟩

/-- A write keeps the canonical form. -/
theorem Cells.wfFrom_write {size : Nat} : ∀ {lo : Nat} {m : Cells} {a : Nat} (v : Word),
    Cells.wfFrom size lo m = true → lo ≤ a → a < size → Cells.wfFrom size lo (Cells.write m a v) = true
  | lo, [], a, v, _, hlo, ha => by
    unfold Cells.write
    split
    · rfl
    · simp_all [Cells.wfFrom]
  | lo, (k, w) :: m, a, v, h, hlo, ha => by
    have h0 := h
    simp only [Cells.wfFrom, Bool.and_eq_true, decide_eq_true_eq] at h
    obtain ⟨⟨⟨hk, hks⟩, hw⟩, ht⟩ := h
    unfold Cells.write
    split
    · rename_i hak
      split
      · exact h0
      · rename_i hv
        simp only [Cells.wfFrom, Bool.and_eq_true, decide_eq_true_eq]
        exact ⟨⟨⟨hlo, ha⟩, hv⟩, ⟨⟨⟨hak, hks⟩, hw⟩, ht⟩⟩
    · split
      · rename_i hak
        split
        · exact Cells.wfFrom_mono (by omega) ht
        · rename_i hv
          subst hak
          simp only [Cells.wfFrom, Bool.and_eq_true, decide_eq_true_eq]
          exact ⟨⟨⟨hlo, ha⟩, hv⟩, ht⟩
      · simp only [Cells.wfFrom, Bool.and_eq_true, decide_eq_true_eq]
        exact ⟨⟨⟨hk, hks⟩, hw⟩, Cells.wfFrom_write v ht (by omega) ha⟩

/-- A write keeps the canonical form of a store. -/
theorem Cells.wf_write {size a : Nat} {m : Cells} (v : Word) (h : Cells.wf size m = true) (ha : a < size) :
    Cells.wf size (Cells.write m a v) = true :=
  Cells.wfFrom_write v h (Nat.zero_le a) ha

theorem Cells.wfFrom_tail {size lo k : Nat} {w : Word} {m : Cells}
    (h : Cells.wfFrom size lo ((k, w) :: m) = true) : Cells.wfFrom size (k + 1) m = true := by
  simp only [Cells.wfFrom, Bool.and_eq_true] at h
  exact h.2

/-- A read after a write to the same address gives the value written (10_state.md R28). -/
theorem Cells.read_write_same_from {size : Nat} : ∀ {lo : Nat} {m : Cells} (a : Nat) (v : Word),
    Cells.wfFrom size lo m = true → Cells.read (Cells.write m a v) a = v
  | _, [], a, v, _ => by
    unfold Cells.write
    split <;> simp_all [Cells.read_cons]
  | lo, (k, w) :: m, a, v, h => by
    have ht := Cells.wfFrom_tail h
    unfold Cells.write
    split
    · rename_i hak
      split
      · rename_i hv
        rw [Cells.read_cons, if_neg (by omega), hv]
        exact Cells.read_below ht (by omega)
      · rw [Cells.read_cons, if_pos rfl]
    · split
      · rename_i hak
        split
        · rename_i hv
          rw [hv]
          exact Cells.read_below ht (by omega)
        · rw [Cells.read_cons, if_pos rfl]
      · rename_i hak
        rw [Cells.read_cons, if_neg hak]
        exact Cells.read_write_same_from a v ht

theorem Cells.read_write_same {size : Nat} {m : Cells} (a : Nat) (v : Word) (h : Cells.wf size m = true) :
    Cells.read (Cells.write m a v) a = v :=
  Cells.read_write_same_from a v h

/-- A write leaves every other address alone. -/
theorem Cells.read_write_other : ∀ (m : Cells) {a b : Nat} (v : Word), b ≠ a →
    Cells.read (Cells.write m a v) b = Cells.read m b
  | [], a, b, v, hb => by
    unfold Cells.write
    split
    · rfl
    · rw [Cells.read_cons, if_neg hb]
  | (k, w) :: m, a, b, v, hb => by
    unfold Cells.write
    split
    · split
      · rfl
      · rw [Cells.read_cons, if_neg hb]
    · split
      · rename_i hak
        split
        · rw [Cells.read_cons, if_neg (by omega)]
        · rw [Cells.read_cons, if_neg hb, Cells.read_cons, if_neg (by omega)]
      · rw [Cells.read_cons, Cells.read_cons, Cells.read_write_other m v hb]

/-- Equal contents are equal data. -/
theorem Cells.ext_from {size : Nat} : ∀ {lo : Nat} {m n : Cells}, Cells.wfFrom size lo m = true →
    Cells.wfFrom size lo n = true → (∀ a, Cells.read m a = Cells.read n a) → m = n
  | _, [], [], _, _, _ => rfl
  | lo, [], (k, w) :: n, _, hn, h => by
    have hk := h k
    simp only [Cells.wfFrom, Bool.and_eq_true, decide_eq_true_eq] at hn
    rw [Cells.read_cons, if_pos rfl] at hk
    exact absurd hk.symm hn.1.2
  | lo, (k, w) :: m, [], hm, _, h => by
    have hk := h k
    simp only [Cells.wfFrom, Bool.and_eq_true, decide_eq_true_eq] at hm
    rw [Cells.read_cons, if_pos rfl] at hk
    exact absurd hk hm.1.2
  | lo, (k, w) :: m, (k', w') :: n, hm, hn, h => by
    have hm' := hm
    have hn' := hn
    simp only [Cells.wfFrom, Bool.and_eq_true, decide_eq_true_eq] at hm hn
    have hkk : k = k' := by
      rcases Nat.lt_trichotomy k k' with hlt | heq | hgt
      · have := h k
        rw [Cells.read_cons, if_pos rfl, Cells.read_cons, if_neg (by omega),
          Cells.read_below hn.2 (by omega)] at this
        exact absurd this hm.1.2
      · exact heq
      · have := h k'
        rw [Cells.read_cons, if_neg (by omega), Cells.read_cons, if_pos rfl,
          Cells.read_below hm.2 (by omega)] at this
        exact absurd this.symm hn.1.2
    subst hkk
    have hw : w = w' := by
      have := h k
      rwa [Cells.read_cons, if_pos rfl, Cells.read_cons, if_pos rfl] at this
    subst hw
    have hmn : m = n := by
      refine Cells.ext_from hm.2 hn.2 fun a => ?_
      by_cases ha : a = k
      · subst ha
        rw [Cells.read_below hm.2 (by omega), Cells.read_below hn.2 (by omega)]
      · have := h a
        rwa [Cells.read_cons, if_neg ha, Cells.read_cons, if_neg ha] at this
    rw [hmn]

theorem Cells.ext_of_wf {size : Nat} {m n : Cells} (hm : Cells.wf size m = true) (hn : Cells.wf size n = true)
    (h : ∀ a, Cells.read m a = Cells.read n a) : m = n :=
  Cells.ext_from hm hn h

/-- Writing the value a cell already holds changes nothing (20_memory.md R60). -/
theorem Cells.write_read {size a : Nat} {m : Cells} (h : Cells.wf size m = true) (ha : a < size) :
    Cells.write m a (Cells.read m a) = m := by
  refine Cells.ext_of_wf (Cells.wf_write _ h ha) h fun b => ?_
  by_cases hb : b = a
  · subst hb
    exact Cells.read_write_same _ _ h
  · exact Cells.read_write_other m _ hb

end Sys2Proof.Machine
end

