-- ==== Sys2Proof/Laws/State.lean ====
section
/-! SUPPORT. One lemma per field per update, each true by unfolding, so that no proof unfolds a record update. -/

namespace Sys2Proof.Machine

variable (s : State)

@[simp] theorem State.setAc_ac (v : Word) : (State.setAc v s).ac = v := rfl
@[simp] theorem State.setAc_ir (v : Word) : (State.setAc v s).ir = s.ir := rfl
@[simp] theorem State.setAc_pc (v : Word) : (State.setAc v s).pc = s.pc := rfl
@[simp] theorem State.setAc_gr (v : Word) : (State.setAc v s).gr = s.gr := rfl
@[simp] theorem State.setAc_mem (v : Word) : (State.setAc v s).mem = s.mem := rfl
@[simp] theorem State.setAc_slot (v : Word) : (State.setAc v s).slot = s.slot := rfl
@[simp] theorem State.setAc_depth (v : Word) : (State.setAc v s).depth = s.depth := rfl
@[simp] theorem State.setAc_instrCount (v : Word) : (State.setAc v s).instrCount = s.instrCount := rfl
@[simp] theorem State.setAc_callCount (v : Word) : (State.setAc v s).callCount = s.callCount := rfl
@[simp] theorem State.setAc_runState (v : Word) : (State.setAc v s).runState = s.runState := rfl
@[simp] theorem State.setAc_faultCause (v : Word) : (State.setAc v s).faultCause = s.faultCause := rfl
@[simp] theorem State.setAc_faultPc (v : Word) : (State.setAc v s).faultPc = s.faultPc := rfl
@[simp] theorem State.setAc_faultIr (v : Word) : (State.setAc v s).faultIr = s.faultIr := rfl

@[simp] theorem State.setIr_ac (v : Word) : (State.setIr v s).ac = s.ac := rfl
@[simp] theorem State.setIr_ir (v : Word) : (State.setIr v s).ir = v := rfl
@[simp] theorem State.setIr_pc (v : Word) : (State.setIr v s).pc = s.pc := rfl
@[simp] theorem State.setIr_gr (v : Word) : (State.setIr v s).gr = s.gr := rfl
@[simp] theorem State.setIr_mem (v : Word) : (State.setIr v s).mem = s.mem := rfl
@[simp] theorem State.setIr_slot (v : Word) : (State.setIr v s).slot = s.slot := rfl
@[simp] theorem State.setIr_depth (v : Word) : (State.setIr v s).depth = s.depth := rfl
@[simp] theorem State.setIr_instrCount (v : Word) : (State.setIr v s).instrCount = s.instrCount := rfl
@[simp] theorem State.setIr_callCount (v : Word) : (State.setIr v s).callCount = s.callCount := rfl
@[simp] theorem State.setIr_runState (v : Word) : (State.setIr v s).runState = s.runState := rfl
@[simp] theorem State.setIr_faultCause (v : Word) : (State.setIr v s).faultCause = s.faultCause := rfl
@[simp] theorem State.setIr_faultPc (v : Word) : (State.setIr v s).faultPc = s.faultPc := rfl
@[simp] theorem State.setIr_faultIr (v : Word) : (State.setIr v s).faultIr = s.faultIr := rfl

@[simp] theorem State.setPc_ac (v : Word) : (State.setPc v s).ac = s.ac := rfl
@[simp] theorem State.setPc_ir (v : Word) : (State.setPc v s).ir = s.ir := rfl
@[simp] theorem State.setPc_pc (v : Word) : (State.setPc v s).pc = v := rfl
@[simp] theorem State.setPc_gr (v : Word) : (State.setPc v s).gr = s.gr := rfl
@[simp] theorem State.setPc_mem (v : Word) : (State.setPc v s).mem = s.mem := rfl
@[simp] theorem State.setPc_slot (v : Word) : (State.setPc v s).slot = s.slot := rfl
@[simp] theorem State.setPc_depth (v : Word) : (State.setPc v s).depth = s.depth := rfl
@[simp] theorem State.setPc_instrCount (v : Word) : (State.setPc v s).instrCount = s.instrCount := rfl
@[simp] theorem State.setPc_callCount (v : Word) : (State.setPc v s).callCount = s.callCount := rfl
@[simp] theorem State.setPc_runState (v : Word) : (State.setPc v s).runState = s.runState := rfl
@[simp] theorem State.setPc_faultCause (v : Word) : (State.setPc v s).faultCause = s.faultCause := rfl
@[simp] theorem State.setPc_faultPc (v : Word) : (State.setPc v s).faultPc = s.faultPc := rfl
@[simp] theorem State.setPc_faultIr (v : Word) : (State.setPc v s).faultIr = s.faultIr := rfl

@[simp] theorem State.setGr_ac (v : Word) : (State.setGr v s).ac = s.ac := rfl
@[simp] theorem State.setGr_ir (v : Word) : (State.setGr v s).ir = s.ir := rfl
@[simp] theorem State.setGr_pc (v : Word) : (State.setGr v s).pc = s.pc := rfl
@[simp] theorem State.setGr_gr (v : Word) : (State.setGr v s).gr = v := rfl
@[simp] theorem State.setGr_mem (v : Word) : (State.setGr v s).mem = s.mem := rfl
@[simp] theorem State.setGr_slot (v : Word) : (State.setGr v s).slot = s.slot := rfl
@[simp] theorem State.setGr_depth (v : Word) : (State.setGr v s).depth = s.depth := rfl
@[simp] theorem State.setGr_instrCount (v : Word) : (State.setGr v s).instrCount = s.instrCount := rfl
@[simp] theorem State.setGr_callCount (v : Word) : (State.setGr v s).callCount = s.callCount := rfl
@[simp] theorem State.setGr_runState (v : Word) : (State.setGr v s).runState = s.runState := rfl
@[simp] theorem State.setGr_faultCause (v : Word) : (State.setGr v s).faultCause = s.faultCause := rfl
@[simp] theorem State.setGr_faultPc (v : Word) : (State.setGr v s).faultPc = s.faultPc := rfl
@[simp] theorem State.setGr_faultIr (v : Word) : (State.setGr v s).faultIr = s.faultIr := rfl

@[simp] theorem State.memWrite_ac (a : Addr) (v : Word) : (State.memWrite a v s).ac = s.ac := rfl
@[simp] theorem State.memWrite_ir (a : Addr) (v : Word) : (State.memWrite a v s).ir = s.ir := rfl
@[simp] theorem State.memWrite_pc (a : Addr) (v : Word) : (State.memWrite a v s).pc = s.pc := rfl
@[simp] theorem State.memWrite_gr (a : Addr) (v : Word) : (State.memWrite a v s).gr = s.gr := rfl
@[simp] theorem State.memWrite_mem (a : Addr) (v : Word) : (State.memWrite a v s).mem = Cells.write s.mem a.toNat v := rfl
@[simp] theorem State.memWrite_slot (a : Addr) (v : Word) : (State.memWrite a v s).slot = s.slot := rfl
@[simp] theorem State.memWrite_depth (a : Addr) (v : Word) : (State.memWrite a v s).depth = s.depth := rfl
@[simp] theorem State.memWrite_instrCount (a : Addr) (v : Word) : (State.memWrite a v s).instrCount = s.instrCount := rfl
@[simp] theorem State.memWrite_callCount (a : Addr) (v : Word) : (State.memWrite a v s).callCount = s.callCount := rfl
@[simp] theorem State.memWrite_runState (a : Addr) (v : Word) : (State.memWrite a v s).runState = s.runState := rfl
@[simp] theorem State.memWrite_faultCause (a : Addr) (v : Word) : (State.memWrite a v s).faultCause = s.faultCause := rfl
@[simp] theorem State.memWrite_faultPc (a : Addr) (v : Word) : (State.memWrite a v s).faultPc = s.faultPc := rfl
@[simp] theorem State.memWrite_faultIr (a : Addr) (v : Word) : (State.memWrite a v s).faultIr = s.faultIr := rfl

@[simp] theorem State.selectPc_ac (p : PcSource) : (State.selectPc p s).ac = s.ac := rfl
@[simp] theorem State.selectPc_ir (p : PcSource) : (State.selectPc p s).ir = s.ir := rfl
@[simp] theorem State.selectPc_pc (p : PcSource) : (State.selectPc p s).pc = nextPc p s.pc := rfl
@[simp] theorem State.selectPc_gr (p : PcSource) : (State.selectPc p s).gr = s.gr := rfl
@[simp] theorem State.selectPc_mem (p : PcSource) : (State.selectPc p s).mem = s.mem := rfl
@[simp] theorem State.selectPc_slot (p : PcSource) : (State.selectPc p s).slot = s.slot := rfl
@[simp] theorem State.selectPc_depth (p : PcSource) : (State.selectPc p s).depth = s.depth := rfl
@[simp] theorem State.selectPc_instrCount (p : PcSource) : (State.selectPc p s).instrCount = s.instrCount := rfl
@[simp] theorem State.selectPc_callCount (p : PcSource) : (State.selectPc p s).callCount = s.callCount := rfl
@[simp] theorem State.selectPc_runState (p : PcSource) : (State.selectPc p s).runState = s.runState := rfl
@[simp] theorem State.selectPc_faultCause (p : PcSource) : (State.selectPc p s).faultCause = s.faultCause := rfl
@[simp] theorem State.selectPc_faultPc (p : PcSource) : (State.selectPc p s).faultPc = s.faultPc := rfl
@[simp] theorem State.selectPc_faultIr (p : PcSource) : (State.selectPc p s).faultIr = s.faultIr := rfl

@[simp] theorem State.countInstr_ac : (State.countInstr s).ac = s.ac := rfl
@[simp] theorem State.countInstr_ir : (State.countInstr s).ir = s.ir := rfl
@[simp] theorem State.countInstr_pc : (State.countInstr s).pc = s.pc := rfl
@[simp] theorem State.countInstr_gr : (State.countInstr s).gr = s.gr := rfl
@[simp] theorem State.countInstr_mem : (State.countInstr s).mem = s.mem := rfl
@[simp] theorem State.countInstr_slot : (State.countInstr s).slot = s.slot := rfl
@[simp] theorem State.countInstr_depth : (State.countInstr s).depth = s.depth := rfl
@[simp] theorem State.countInstr_instrCount : (State.countInstr s).instrCount = s.instrCount + 1#32 := rfl
@[simp] theorem State.countInstr_callCount : (State.countInstr s).callCount = s.callCount := rfl
@[simp] theorem State.countInstr_runState : (State.countInstr s).runState = s.runState := rfl
@[simp] theorem State.countInstr_faultCause : (State.countInstr s).faultCause = s.faultCause := rfl
@[simp] theorem State.countInstr_faultPc : (State.countInstr s).faultPc = s.faultPc := rfl
@[simp] theorem State.countInstr_faultIr : (State.countInstr s).faultIr = s.faultIr := rfl

@[simp] theorem State.countCall_ac : (State.countCall s).ac = s.ac := rfl
@[simp] theorem State.countCall_ir : (State.countCall s).ir = s.ir := rfl
@[simp] theorem State.countCall_pc : (State.countCall s).pc = s.pc := rfl
@[simp] theorem State.countCall_gr : (State.countCall s).gr = s.gr := rfl
@[simp] theorem State.countCall_mem : (State.countCall s).mem = s.mem := rfl
@[simp] theorem State.countCall_slot : (State.countCall s).slot = s.slot := rfl
@[simp] theorem State.countCall_depth : (State.countCall s).depth = s.depth := rfl
@[simp] theorem State.countCall_instrCount : (State.countCall s).instrCount = s.instrCount := rfl
@[simp] theorem State.countCall_callCount : (State.countCall s).callCount = s.callCount + 1#32 := rfl
@[simp] theorem State.countCall_runState : (State.countCall s).runState = s.runState := rfl
@[simp] theorem State.countCall_faultCause : (State.countCall s).faultCause = s.faultCause := rfl
@[simp] theorem State.countCall_faultPc : (State.countCall s).faultPc = s.faultPc := rfl
@[simp] theorem State.countCall_faultIr : (State.countCall s).faultIr = s.faultIr := rfl

@[simp] theorem State.setRunState_ac (r : RunState) : (State.setRunState r s).ac = s.ac := rfl
@[simp] theorem State.setRunState_ir (r : RunState) : (State.setRunState r s).ir = s.ir := rfl
@[simp] theorem State.setRunState_pc (r : RunState) : (State.setRunState r s).pc = s.pc := rfl
@[simp] theorem State.setRunState_gr (r : RunState) : (State.setRunState r s).gr = s.gr := rfl
@[simp] theorem State.setRunState_mem (r : RunState) : (State.setRunState r s).mem = s.mem := rfl
@[simp] theorem State.setRunState_slot (r : RunState) : (State.setRunState r s).slot = s.slot := rfl
@[simp] theorem State.setRunState_depth (r : RunState) : (State.setRunState r s).depth = s.depth := rfl
@[simp] theorem State.setRunState_instrCount (r : RunState) : (State.setRunState r s).instrCount = s.instrCount := rfl
@[simp] theorem State.setRunState_callCount (r : RunState) : (State.setRunState r s).callCount = s.callCount := rfl
@[simp] theorem State.setRunState_runState (r : RunState) : (State.setRunState r s).runState = r := rfl
@[simp] theorem State.setRunState_faultCause (r : RunState) : (State.setRunState r s).faultCause = s.faultCause := rfl
@[simp] theorem State.setRunState_faultPc (r : RunState) : (State.setRunState r s).faultPc = s.faultPc := rfl
@[simp] theorem State.setRunState_faultIr (r : RunState) : (State.setRunState r s).faultIr = s.faultIr := rfl

@[simp] theorem faultEntry_ac (c : FaultCause) (p : Word) : (faultEntry c p s).ac = s.ac := rfl
@[simp] theorem faultEntry_ir (c : FaultCause) (p : Word) : (faultEntry c p s).ir = s.ir := rfl
@[simp] theorem faultEntry_pc (c : FaultCause) (p : Word) : (faultEntry c p s).pc = s.pc := rfl
@[simp] theorem faultEntry_gr (c : FaultCause) (p : Word) : (faultEntry c p s).gr = s.gr := rfl
@[simp] theorem faultEntry_mem (c : FaultCause) (p : Word) : (faultEntry c p s).mem = s.mem := rfl
@[simp] theorem faultEntry_slot (c : FaultCause) (p : Word) : (faultEntry c p s).slot = s.slot := rfl
@[simp] theorem faultEntry_depth (c : FaultCause) (p : Word) : (faultEntry c p s).depth = s.depth := rfl
@[simp] theorem faultEntry_instrCount (c : FaultCause) (p : Word) : (faultEntry c p s).instrCount = s.instrCount := rfl
@[simp] theorem faultEntry_callCount (c : FaultCause) (p : Word) : (faultEntry c p s).callCount = s.callCount := rfl
@[simp] theorem faultEntry_runState (c : FaultCause) (p : Word) : (faultEntry c p s).runState = .faulted := rfl
@[simp] theorem faultEntry_faultCause (c : FaultCause) (p : Word) : (faultEntry c p s).faultCause = c := rfl
@[simp] theorem faultEntry_faultPc (c : FaultCause) (p : Word) : (faultEntry c p s).faultPc = p := rfl
@[simp] theorem faultEntry_faultIr (c : FaultCause) (p : Word) : (faultEntry c p s).faultIr = s.ir := rfl

@[simp] theorem fetch_ac : (fetch s).ac = s.ac := rfl
@[simp] theorem fetch_ir : (fetch s).ir = fetchWord s := rfl
@[simp] theorem fetch_pc : (fetch s).pc = s.pc + 1#16 := rfl
@[simp] theorem fetch_gr : (fetch s).gr = s.gr := rfl
@[simp] theorem fetch_mem : (fetch s).mem = s.mem := rfl
@[simp] theorem fetch_slot : (fetch s).slot = s.slot := rfl
@[simp] theorem fetch_depth : (fetch s).depth = s.depth := rfl
@[simp] theorem fetch_instrCount : (fetch s).instrCount = s.instrCount := rfl
@[simp] theorem fetch_callCount : (fetch s).callCount = s.callCount := rfl
@[simp] theorem fetch_runState : (fetch s).runState = s.runState := rfl
@[simp] theorem fetch_faultCause : (fetch s).faultCause = s.faultCause := rfl
@[simp] theorem fetch_faultPc : (fetch s).faultPc = s.faultPc := rfl
@[simp] theorem fetch_faultIr : (fetch s).faultIr = s.faultIr := rfl

@[simp] theorem nextPc_increment (w : Word) : nextPc .increment w = w + 1#16 := rfl
@[simp] theorem nextPc_target (a : Addr) (w : Word) : nextPc (.target a) w = zext16 a := rfl
@[simp] theorem nextPc_popped (v w : Word) : nextPc (.popped v) w = v := rfl
@[simp] theorem nextPc_host (v w : Word) : nextPc (.host v) w = v := rfl
@[simp] theorem nextPc_hold (w : Word) : nextPc .hold w = w := rfl

@[simp] theorem State.readReg_ac : s.readReg .ac = s.ac := rfl
@[simp] theorem State.readReg_ir : s.readReg .ir = s.ir := rfl
@[simp] theorem State.readReg_pc : s.readReg .pc = s.pc := rfl
@[simp] theorem State.readReg_gr : s.readReg .gr = s.gr := rfl

@[simp] theorem State.writeReg_ac_eq (v : Word) : State.writeReg .ac v s = s.setAc v := rfl
@[simp] theorem State.writeReg_ir_eq (v : Word) : State.writeReg .ir v s = s.setIr v := rfl
@[simp] theorem State.writeReg_pc_eq (v : Word) : State.writeReg .pc v s = s.setPc v := rfl
@[simp] theorem State.writeReg_gr_eq (v : Word) : State.writeReg .gr v s = s.setGr v := rfl

end Sys2Proof.Machine
end

