-- ==== Sys2Proof/Laws/Ops.lean ====
section
/-! SUPPORT. For each shared operation, what it does, said once: the stack, the ends of an instruction, the fetch,
the step by run state; and that every operation that writes memory or slots keeps their canonical form. -/

namespace Sys2Proof.Machine

theorem addr_lt_memWords (a : Addr) : a.toNat < Config.memWords := a.isLt

/-! ## Memory and slots keep their form -/

theorem State.memWrite_wf {s : State} (a : Addr) (v : Word) (h : Memory.wf s.mem = true) :
    Memory.wf (s.memWrite a v).mem = true :=
  Cells.wf_write v h (addr_lt_memWords a)

theorem State.reset_mem_wf : Memory.wf State.reset.mem = true := rfl

theorem State.reset_slot_wf : Slots.wf State.reset.slot = true := rfl

/-! ## Stack -/

theorem stackFull_iff (s : State) : stackFull s = true ↔ s.depth = Config.stackWords := by
  simp [stackFull]

theorem stackEmpty_iff (s : State) : stackEmpty s = true ↔ s.depth = 0 := by
  simp [stackEmpty]

/-- A push onto a full stack raises StackOverflow with nothing changed (10_state.md R33). -/
theorem push_full {s : State} (v : Word) (h : s.depth = Config.stackWords) :
    push v s = .error ⟨.stackOverflow, s⟩ := by
  simp [push, stackFull, h]

/-- A push onto a stack that is not full fills the next slot (10_state.md R33). -/
theorem push_room {s : State} (v : Word) (h : s.depth ≠ Config.stackWords) :
    push v s = .ok { s with slot := Cells.write s.slot s.depth v, depth := s.depth + 1 } := by
  simp [push, stackFull, h]

/-- A push keeps the slots' canonical form. -/
theorem push_slot_wf {s t : State} {v : Word} (h : push v s = .ok t) (hd : s.depth ≤ Config.stackWords)
    (hw : Slots.wf s.slot = true) : Slots.wf t.slot = true := by
  by_cases hf : s.depth = Config.stackWords
  · rw [push_full v hf] at h
    exact nomatch h
  · rw [push_room v hf] at h
    cases h
    exact Cells.wf_write v hw (by omega)

/-- A pop from an empty stack raises StackUnderflow with nothing changed (10_state.md R34). -/
theorem popInto_empty {s : State} (r : Reg) (h : s.depth = 0) : popInto r s = .error ⟨.stackUnderflow, s⟩ := by
  simp [popInto, stackEmpty, h]

/-- A pop reads the top slot and keeps its Word (10_state.md R34). -/
theorem popInto_occupied {s : State} (r : Reg) (h : s.depth ≠ 0) :
    popInto r s =
      .ok (({ s with depth := s.depth - 1 } : State).writeReg r (Cells.read s.slot (s.depth - 1))) := by
  simp [popInto, stackEmpty, h]

/-! ## The ends of an instruction -/

@[simp] theorem finish_ok (s : State) : finish (.ok s) = .next s.countInstr := rfl

@[simp] theorem finish_error (c : FaultCause) (s : State) :
    finish (.error ⟨c, s⟩) = .next (faultEntry c (pcOfCurrent s) s) := rfl

/-- Every end of an instruction is a next state. -/
theorem finish_next (h : Handled) : ∃ t, finish h = .next t := by
  cases h with
  | ok s => exact ⟨_, rfl⟩
  | error r => exact ⟨_, rfl⟩

/-! ## Handlers of the control instructions -/

theorem jumpHandler_full {s : State} (a : Addr) (h : s.depth = Config.stackWords) :
    jumpHandler a s = .error ⟨.stackOverflow, s⟩ := by
  simp [jumpHandler, stackFull, h]

/-- With room for a frame the four Words go to the next four slots, in the order PC, IR, AC, GR (43_control.md R120). -/
theorem jumpHandler_room {s : State} (a : Addr) (h : s.depth + Config.frameWords ≤ Config.stackWords) :
    jumpHandler a s = .ok
      { s with
        slot := Cells.write (Cells.write (Cells.write (Cells.write s.slot s.depth s.pc) (s.depth + 1) s.ir)
          (s.depth + 2) s.ac) (s.depth + 3) s.gr
        depth := s.depth + 4
        pc := zext16 a
        callCount := s.callCount + 1#32 } := by
  have h4 : Config.frameWords = 4 := rfl
  have h0 : stackFull s = false := by simp [stackFull]; omega
  simp only [jumpHandler, h0, Bool.false_eq_true, if_false]
  rw [push_room _ (by omega)]
  simp only [Except.bind, bind]
  rw [push_room _ (by simp only []; omega)]
  simp only []
  rw [push_room _ (by simp only []; omega)]
  simp only []
  rw [push_room _ (by simp only []; omega)]
  rfl

theorem retHandler_empty {s : State} (h : s.depth = 0) : retHandler s = .error ⟨.stackUnderflow, s⟩ := by
  simp [retHandler, stackEmpty, h]

/-- With a frame on the stack the four registers are restored from the top four slots (43_control.md R122). -/
theorem retHandler_frame {s : State} (h : Config.frameWords ≤ s.depth) :
    retHandler s = .ok
      { s with
        depth := s.depth - 4
        gr := Cells.read s.slot (s.depth - 1)
        ac := Cells.read s.slot (s.depth - 2)
        ir := Cells.read s.slot (s.depth - 3)
        pc := Cells.read s.slot (s.depth - 4) } := by
  have h4 : Config.frameWords = 4 := rfl
  have h0 : stackEmpty s = false := by simp [stackEmpty]; omega
  simp only [retHandler, h0, Bool.false_eq_true, if_false]
  rw [popInto_occupied _ (by omega)]
  simp only [Except.bind, bind, State.writeReg, State.setGr]
  rw [popInto_occupied _ (by simp only []; omega)]
  simp only [State.writeReg, State.setAc]
  rw [popInto_occupied _ (by simp only []; omega)]
  simp only [State.writeReg, State.setIr]
  rw [popInto_occupied _ (by simp only []; omega)]
  simp only [State.writeReg, State.setPc, Nat.sub_sub]

/-- However a push ends, it touched only the stack. -/
theorem push_shape (v : Word) (s : State) :
    push v s = .error ⟨.stackOverflow, s⟩ ∨
      ∃ sl d, push v s = .ok { s with slot := sl, depth := d } := by
  by_cases h : s.depth = Config.stackWords
  · exact .inl (push_full v h)
  · exact .inr ⟨_, _, push_room v h⟩

/-- However a call ends, from any stack: it raised StackOverflow having touched only the stack, or it touched only
the stack, PC and `call_count`. -/
theorem jumpHandler_shape (a : Addr) (s : State) :
    (∃ sl d, jumpHandler a s = .error ⟨.stackOverflow, { s with slot := sl, depth := d }⟩) ∨
      ∃ sl d, jumpHandler a s =
        .ok { s with slot := sl, depth := d, pc := zext16 a, callCount := s.callCount + 1#32 } := by
  by_cases h : stackFull s = true
  · exact .inl ⟨s.slot, s.depth, by simp [jumpHandler, h]⟩
  · simp only [jumpHandler, if_neg h, bind, Except.bind]
    rcases push_shape s.pc s with e1 | ⟨sl1, d1, e1⟩ <;> rw [e1] <;> simp only []
    · exact .inl ⟨s.slot, s.depth, rfl⟩
    rcases push_shape s.ir { s with slot := sl1, depth := d1 } with e2 | ⟨sl2, d2, e2⟩ <;> rw [e2] <;> simp only []
    · exact .inl ⟨sl1, d1, rfl⟩
    rcases push_shape s.ac { s with slot := sl2, depth := d2 } with e3 | ⟨sl3, d3, e3⟩ <;> rw [e3] <;> simp only []
    · exact .inl ⟨sl2, d2, rfl⟩
    rcases push_shape s.gr { s with slot := sl3, depth := d3 } with e4 | ⟨sl4, d4, e4⟩ <;> rw [e4] <;> simp only []
    · exact .inl ⟨sl3, d3, rfl⟩
    · exact .inr ⟨sl4, d4, rfl⟩

/-- However a pop ends, it touched only the occupancy and its register. -/
theorem popInto_shape (r : Reg) (s : State) :
    popInto r s = .error ⟨.stackUnderflow, s⟩ ∨
      ∃ d v, popInto r s = .ok (({ s with depth := d } : State).writeReg r v) := by
  by_cases h : s.depth = 0
  · exact .inl (popInto_empty r h)
  · exact .inr ⟨_, _, popInto_occupied r h⟩

/-- However a return ends, from any stack: it touched only the four registers and the occupancy. -/
theorem retHandler_shape (s : State) :
    ∃ gr ac ir pc d,
      retHandler s = .error ⟨.stackUnderflow, { s with gr := gr, ac := ac, ir := ir, pc := pc, depth := d }⟩ ∨
        retHandler s = .ok { s with gr := gr, ac := ac, ir := ir, pc := pc, depth := d } := by
  by_cases h : stackEmpty s = true
  · exact ⟨s.gr, s.ac, s.ir, s.pc, s.depth, .inl (by simp [retHandler, h])⟩
  · simp only [retHandler, if_neg h, bind, Except.bind]
    rcases popInto_shape .gr s with e1 | ⟨d1, v1, e1⟩ <;> rw [e1] <;>
      simp only [State.writeReg, State.setGr]
    · exact ⟨s.gr, s.ac, s.ir, s.pc, s.depth, .inl rfl⟩
    rcases popInto_shape .ac { s with gr := v1, depth := d1 } with e2 | ⟨d2, v2, e2⟩ <;> rw [e2] <;>
      simp only [State.writeReg, State.setAc]
    · exact ⟨v1, s.ac, s.ir, s.pc, d1, .inl rfl⟩
    rcases popInto_shape .ir { s with gr := v1, ac := v2, depth := d2 } with e3 | ⟨d3, v3, e3⟩ <;> rw [e3] <;>
      simp only [State.writeReg, State.setIr]
    · exact ⟨v1, v2, s.ir, s.pc, d2, .inl rfl⟩
    rcases popInto_shape .pc { s with gr := v1, ac := v2, ir := v3, depth := d3 } with e4 | ⟨d4, v4, e4⟩ <;>
      rw [e4]
    · exact ⟨v1, v2, v3, s.pc, d3, .inl rfl⟩
    · exact ⟨v1, v2, v3, v4, d4, .inr rfl⟩

/-! ## Fetch and step -/

theorem fetchOk_iff (pc : Word) : fetchOk pc = true ↔ pc.toNat < Config.memWords := by
  simp [fetchOk]

/-- `fetch_ok` is `PC[15:12] = 0` (10_state.md R45; 40_execution_cycle.md R90). -/
theorem fetchOk_iff_top_zero (pc : Word) : fetchOk pc = true ↔ pc.extractLsb' 12 4 = 0#4 := by
  have h := pc.isLt
  rw [fetchOk_iff, ← BitVec.toNat_inj, BitVec.extractLsb'_toNat, Nat.shiftRight_eq_div_pow, BitVec.toNat_ofNat]
  simp only [Config.memWords]
  omega

/-- A fetch that passed its range check reads the cell that PC names. -/
theorem fetchWord_eq {s : State} (h : s.pc.toNat < Config.memWords) :
    fetchWord s = Cells.read s.mem s.pc.toNat := by
  have h' : s.pc.toNat % 4096 = s.pc.toNat := Nat.mod_eq_of_lt h
  simp [fetchWord, State.memRead, BitVec.toNat_setWidth, h']

theorem step_running {s : State} (h : s.runState = .running) : step s = cycle s := by
  simp [step, h]

theorem step_idle {s : State} (h : s.runState = .idle) : step s = .fault .idle := by
  simp [step, h]

theorem step_halted {s : State} (h : s.runState = .halted) : step s = .fault .halted := by
  simp [step, h]

theorem step_faulted {s : State} (h : s.runState = .faulted) : step s = .fault .faulted := by
  simp [step, h]

theorem cycle_out_of_range {s : State} (h : fetchOk s.pc = false) :
    cycle s = .next (faultEntry .fetchOutOfRange s.pc s) := by
  simp [cycle, h]

theorem cycle_in_range {s : State} (h : fetchOk s.pc = true) : cycle s = decodeAndExec (fetch s) := by
  simp [cycle, h]

theorem decodeAndExec_instr {s : State} {i : Instr} (h : decode s.ir = .instr i) :
    decodeAndExec s = exec i s := by
  simp [decodeAndExec, h]

theorem decodeAndExec_illegal {s : State} {o : Opcode} (h : decode s.ir = .unrecognizedOpcode o) :
    decodeAndExec s = .next (faultEntry .unrecognizedOpcode (pcOfCurrent s) s) := by
  simp [decodeAndExec, h]

/-! ## Host operations -/

theorem hostApplyAll_append (cs ds : List HostCommand) (s : State) :
    hostApplyAll (cs ++ ds) s = hostApplyAll ds (hostApplyAll cs s) := by
  induction cs generalizing s with
  | nil => rfl
  | cons c cs ih => exact ih _

theorem runFor_zero (s : State) : runFor 0 s = (s, []) := rfl

theorem runFor_next {s t : State} (n : Nat) (h : step s = .next t) :
    runFor (n + 1) s = ((runFor n t).1, stepEmits s ++ (runFor n t).2) := by
  simp [runFor, h]

end Sys2Proof.Machine
end

