-- ==== Sys2Proof/Laws/Blocks.lean ====
section
/-! SUPPORT. For each port operation of the blocks, what it does, said once. -/

namespace Sys2Proof.Machine

/-! ## execution_stack -/

/-- The block's diagnostic view is the stack view of the snapshots and of the status accessors (10_state.md R35). -/
theorem stackPort_view (inp : StackIn) (s : State) : (stackPort inp s).view = stackView s := rfl

/-- On the occupancies there are, `depth[10:0]` is the occupancy. -/
theorem stackPort_depth {s : State} (inp : StackIn) (h : s.depth ≤ Config.stackWords) :
    (stackPort inp s).depth.toNat = s.depth := by
  simp only [Config.stackWords] at h
  simp [stackPort, executionStack]
  omega

/-- A push through the port onto a stack with room fills the next slot (10_state.md R33). -/
theorem pushPort_room {s : State} (r : Reg) (h : s.depth ≠ Config.stackWords) :
    pushPort s r = { s with slot := Cells.write s.slot s.depth (s.readReg r), depth := s.depth + 1 } := by
  simp [pushPort, stackOperate, stackPort, executionStack, StackIn.push, h]

/-- The four pushes of a call, into room for a frame (43_control.md R120). -/
theorem pushPort_frame {s : State} (h : s.depth + Config.frameWords ≤ Config.stackWords) :
    [Reg.pc, .ir, .ac, .gr].foldl pushPort s =
      { s with
        slot := Cells.write (Cells.write (Cells.write (Cells.write s.slot s.depth s.pc) (s.depth + 1) s.ir)
          (s.depth + 2) s.ac) (s.depth + 3) s.gr
        depth := s.depth + 4 } := by
  simp only [Config.frameWords, Config.stackWords] at h
  simp only [List.foldl_cons, List.foldl_nil]
  rw [pushPort_room (s := s) .pc (by simp only [Config.stackWords]; omega),
    pushPort_room .ir (by simp only [Config.stackWords]; omega),
    pushPort_room .ac (by simp only [Config.stackWords]; omega),
    pushPort_room .gr (by simp only [Config.stackWords]; omega)]
  rfl

/-- Pops through the port free as many slots and keep their Words (10_state.md R34). -/
theorem popPort_occupied : ∀ (n : Nat) {s : State}, n ≤ s.depth → popPort n s = { s with depth := s.depth - n }
  | 0, _, _ => rfl
  | n + 1, s, h => by
    have h1 : stackOperate .pop s = { s with depth := s.depth - 1 } := by
      have : s.depth ≠ 0 := by omega
      simp [stackOperate, stackPort, executionStack, StackIn.pop, this]
    have h2 : n ≤ (stackOperate .pop s).depth := by
      rw [h1]
      exact Nat.le_sub_one_of_lt h
    rw [popPort, popPort_occupied n h2, h1]
    simp only [Nat.sub_sub, Nat.add_comm]

/-- `pop_data` after `n` pops is the Word of the slot that is the top then (10_state.md R34, R42). -/
theorem popDataAfter_occupied {n : Nat} {s : State} (h : n ≤ s.depth) :
    popDataAfter n s = Cells.read s.slot (s.depth - n - 1) := by
  rw [popDataAfter, popPort_occupied n h]
  rfl

/-! ## fetch_unit -/

/-- With PC in range the fetch_unit's outputs do the fetch (10_state.md R46; 40_execution_cycle.md R90). -/
theorem datapathFetch_in_range {s : State} (hr : s.runState = .running) (hp : fetchOk s.pc = true) :
    datapathFetch s = fetch s := by
  simp [datapathFetch, fetchUnit, hr, hp, fetch, State.setIr, State.selectPc, State.setPc, fetchWord, State.memRead,
    memoryReadPort]

end Sys2Proof.Machine
end

