-- ==== Sys2Proof/Laws/PerInstr.lean ====
section
/-! SUPPORT. The family Encoding: of every instruction, that its word splits back into its opcode and its field
(30_encoding.md R72 to R74), and that it passes the check of WellFormed.lean. -/

namespace Sys2Proof.Laws.Encoding

/-- The instruction is well formed, its opcode is none of the illegal ones, and its word has its opcode in bits
[15:12] and its field in bits [11:0]. -/
def Statement (i : Instr) : Prop :=
  i.wellFormed = true ∧ validOpcode i.opcode = true ∧
    decodeOpcode (encode i) = i.opcode ∧ decodeAddress (encode i) = i.operand

/-- The opcode of an encoded pair is read back (30_encoding.md R74). -/
theorem decodeOpcode_encodeFields (o : Opcode) (a : Addr) : decodeOpcode (encodeFields o a) = o := by
  ext i hi
  have h : 12 + i < 16 := by omega
  simp [decodeOpcode, encodeFields, hi, h]

/-- The field of an encoded pair is read back (30_encoding.md R74). -/
theorem decodeAddress_encodeFields (o : Opcode) (a : Addr) : decodeAddress (encodeFields o a) = a := by
  ext i hi
  have h : i < 16 := by omega
  simp [decodeAddress, encodeFields, hi, h]

theorem wellFormed_of_operand (i : Instr) : i.wellFormed = true := by
  have h := i.operand.isLt
  simpa [Instr.wellFormed, addressInRange] using h

theorem statement_of_valid (i : Instr) (h : validOpcode i.opcode = true) : Statement i :=
  ⟨wellFormed_of_operand i, h, decodeOpcode_encodeFields _ _, decodeAddress_encodeFields _ _⟩

theorem loadAcMem (a : Addr) : Statement (.loadAcMem a) := statement_of_valid _ rfl
theorem storeAcMem (a : Addr) : Statement (.storeAcMem a) := statement_of_valid _ rfl
theorem loadAcReg (a : Addr) : Statement (.loadAcReg a) := statement_of_valid _ rfl
theorem storeAcReg (a : Addr) : Statement (.storeAcReg a) := statement_of_valid _ rfl
theorem addAcMem (a : Addr) : Statement (.addAcMem a) := statement_of_valid _ rfl
theorem loadRegOperand (a : Addr) : Statement (.loadRegOperand a) := statement_of_valid _ rfl
theorem addAcReg (a : Addr) : Statement (.addAcReg a) := statement_of_valid _ rfl
theorem multAcReg (a : Addr) : Statement (.multAcReg a) := statement_of_valid _ rfl
theorem subtAcReg (a : Addr) : Statement (.subtAcReg a) := statement_of_valid _ rfl
theorem divAcReg (a : Addr) : Statement (.divAcReg a) := statement_of_valid _ rfl
theorem jumpToSubrout (a : Addr) : Statement (.jumpToSubrout a) := statement_of_valid _ rfl
theorem retFrmSubrout (a : Addr) : Statement (.retFrmSubrout a) := statement_of_valid _ rfl
theorem halt (a : Addr) : Statement (.halt a) := statement_of_valid _ rfl

end Sys2Proof.Laws.Encoding
end

