-- ==== Sys2Proof/Laws/Step.lean ====
section
/-! SUPPORT. What an instruction and a step can do, said once: an equation per instruction (one per case where it
has several), and the cases of a step. -/

namespace Sys2Proof.Machine

/-! ## Instructions -/

variable (s : State)

theorem exec_loadAcMem (a : Addr) : exec (.loadAcMem a) s = .next (s.setAc (s.memRead a)).countInstr := rfl

theorem exec_storeAcMem (a : Addr) : exec (.storeAcMem a) s = .next (s.memWrite a s.ac).countInstr := rfl

theorem exec_loadAcReg (x : Addr) : exec (.loadAcReg x) s = .next (s.setAc s.gr).countInstr := rfl

theorem exec_storeAcReg (x : Addr) : exec (.storeAcReg x) s = .next (s.setGr s.ac).countInstr := rfl

theorem exec_addAcMem (a : Addr) :
    exec (.addAcMem a) s = .next (s.setAc (addWords s.ac (s.memRead a))).countInstr := rfl

theorem exec_loadRegOperand (a : Addr) : exec (.loadRegOperand a) s = .next (s.setGr (zext16 a)).countInstr := rfl

theorem exec_addAcReg (x : Addr) : exec (.addAcReg x) s = .next (s.setAc (addWords s.ac s.gr)).countInstr := rfl

theorem exec_multAcReg (x : Addr) : exec (.multAcReg x) s = .next (s.setAc (multWords s.ac s.gr)).countInstr := rfl

theorem exec_subtAcReg (x : Addr) : exec (.subtAcReg x) s = .next (s.setAc (subtWords s.ac s.gr)).countInstr := rfl

theorem exec_halt (x : Addr) : exec (.halt x) s = .next (s.countInstr.setRunState .halted) := rfl

variable {s}

theorem exec_divAcReg_zero (x : Addr) (h : s.gr = 0#16) :
    exec (.divAcReg x) s = .next (faultEntry .divisionByZero (pcOfCurrent s) s) := by
  simp [exec, execDivAcReg, h]

theorem exec_divAcReg_nonzero (x : Addr) (h : s.gr ≠ 0#16) :
    exec (.divAcReg x) s = .next (s.setAc (divWords s.ac s.gr)).countInstr := by
  simp [exec, execDivAcReg, h]

theorem exec_jumpToSubrout_full (a : Addr) (h : s.depth = Config.stackWords) :
    exec (.jumpToSubrout a) s = .next (faultEntry .stackOverflow (pcOfCurrent s) s) := by
  simp [exec, execJumpToSubrout, jumpHandler_full a h]

theorem exec_jumpToSubrout_room (a : Addr) (h : s.depth + Config.frameWords ≤ Config.stackWords) :
    exec (.jumpToSubrout a) s = .next
      { s with
        slot := Cells.write (Cells.write (Cells.write (Cells.write s.slot s.depth s.pc) (s.depth + 1) s.ir)
          (s.depth + 2) s.ac) (s.depth + 3) s.gr
        depth := s.depth + 4
        pc := zext16 a
        callCount := s.callCount + 1#32
        instrCount := s.instrCount + 1#32 } := by
  simp [exec, execJumpToSubrout, jumpHandler_room a h, State.countInstr]

theorem exec_retFrmSubrout_empty (x : Addr) (h : s.depth = 0) :
    exec (.retFrmSubrout x) s = .next (faultEntry .stackUnderflow (pcOfCurrent s) s) := by
  simp [exec, execRetFrmSubrout, retHandler_empty h]

theorem exec_retFrmSubrout_frame (x : Addr) (h : Config.frameWords ≤ s.depth) :
    exec (.retFrmSubrout x) s = .next
      { s with
        depth := s.depth - 4
        gr := Cells.read s.slot (s.depth - 1)
        ac := Cells.read s.slot (s.depth - 2)
        ir := Cells.read s.slot (s.depth - 3)
        pc := Cells.read s.slot (s.depth - 4)
        instrCount := s.instrCount + 1#32 } := by
  simp [exec, execRetFrmSubrout, retHandler_frame h, State.countInstr]

/-- Every instruction answers a next state from every state: no instruction stops the model. -/
theorem exec_next (i : Instr) (s : State) : ∃ t, exec i s = .next t := by
  cases i <;> first | exact ⟨_, rfl⟩ | exact finish_next _

/-! ## Steps -/

/-- The next step runs `i` from the state after the fetch. -/
theorem step_of_nextIs {i : Instr} (h : s.nextIs i) : step s = exec i (fetch s) := by
  obtain ⟨hr, hp, hd⟩ := h
  rw [step_running hr, cycle_in_range ((fetchOk_iff _).2 hp)]
  exact decodeAndExec_instr (by rw [fetch_ir, fetchWord_eq hp, hd])

/-- After the fetch, `pcOfCurrent` is the PC at the start of the step (log 2). -/
theorem pcOfCurrent_fetch (s : State) : pcOfCurrent (fetch s) = s.pc := by
  simp [pcOfCurrent]

/-- What a step that answers a next state did: only a RUNNING core steps, and it faulted in the fetch, faulted in
the decode, or ran the instruction at PC. -/
theorem step_cases {t : State} (h : step s = .next t) :
    s.runState = .running ∧
      ((Config.memWords ≤ s.pc.toNat ∧ t = faultEntry .fetchOutOfRange s.pc s) ∨
        (s.pc.toNat < Config.memWords ∧ (∃ o, decode (Cells.read s.mem s.pc.toNat) = .unrecognizedOpcode o) ∧
          t = faultEntry .unrecognizedOpcode s.pc (fetch s)) ∨
        ∃ i, s.nextIs i ∧ exec i (fetch s) = .next t) := by
  cases hr : s.runState with
  | idle => rw [step_idle hr] at h; exact nomatch h
  | halted => rw [step_halted hr] at h; exact nomatch h
  | faulted => rw [step_faulted hr] at h; exact nomatch h
  | running =>
    refine ⟨rfl, ?_⟩
    by_cases hp : s.pc.toNat < Config.memWords
    · have hf := fetchWord_eq hp
      cases hd : decode (Cells.read s.mem s.pc.toNat) with
      | instr i =>
        have hn : s.nextIs i := ⟨hr, hp, hd⟩
        exact .inr (.inr ⟨i, hn, (step_of_nextIs hn).symm.trans h⟩)
      | unrecognizedOpcode o =>
        rw [step_running hr, cycle_in_range ((fetchOk_iff _).2 hp),
          decodeAndExec_illegal (o := o) (by rw [fetch_ir, hf, hd]), pcOfCurrent_fetch] at h
        exact .inr (.inl ⟨hp, ⟨o, rfl⟩, by cases h; rfl⟩)
    · have hb : fetchOk s.pc = false := by simpa [fetchOk] using hp
      rw [step_running hr, cycle_out_of_range hb] at h
      exact .inl ⟨by omega, by cases h; rfl⟩

/-- The events of a step that runs `i` are those of `i` after the fetch. -/
theorem stepEmits_of_nextIs {i : Instr} (h : s.nextIs i) : stepEmits s = emits i (fetch s) := by
  obtain ⟨hr, hp, hd⟩ := h
  simp [stepEmits, hr, (fetchOk_iff _).2 hp, fetchWord_eq hp, hd]

/-- A step whose fetch is out of range has no event. -/
theorem stepEmits_out_of_range (h : Config.memWords ≤ s.pc.toNat) : stepEmits s = [] := by
  have hb : fetchOk s.pc = false := by simpa [fetchOk] using h
  unfold stepEmits
  split <;> simp [hb]

/-- A step on an illegal opcode has no event. -/
theorem stepEmits_illegal {o : Opcode} (hp : s.pc.toNat < Config.memWords)
    (h : decode (Cells.read s.mem s.pc.toNat) = .unrecognizedOpcode o) : stepEmits s = [] := by
  unfold stepEmits
  split <;> simp [fetchWord_eq hp, h]

/-- A step of a RUNNING core always answers a next state (40_execution_cycle.md R97). -/
theorem step_next_of_running (h : s.runState = .running) : ∃ t, step s = .next t := by
  rw [step_running h]
  unfold cycle
  split
  · unfold decodeAndExec
    split
    · exact exec_next _ _
    · exact finish_next _
  · exact ⟨_, rfl⟩

end Sys2Proof.Machine
end

