-- ==== Sys2Proof/Machine/Flags.lean ====
section
/-! DEFINITION. There is nothing to define here: the CORE has no flags, condition codes or predicates, and no
arithmetic result is reported as carry, overflow or sign (10_state.md R25; 42_arithmetic.md R114, R118). -/
end

