-- ==== Sys2Proof/Tests/Slice0.lean ====
section
/-! SUPPORT. Tests of one decode, one operation or one step each, their expected results from 95_test_vectors.md or
from a rule by hand (named at each), and a witness for the hypotheses of each statement. -/

namespace Sys2Proof.Tests.Slice0

open Sys2Proof Sys2Proof.Machine

/-! ## Well-formedness: an ill-formed term for each check -/

theorem test_operand_0x1000_refused : addressInRange 0x1000 = false ∧ addressInRange 0xFFF = true := by decide
theorem test_value_0x10000_refused : wordInRange 0x10000 = false ∧ wordInRange 0xFFFF = true := by decide
/-- An `Instr` holds 12 bits, so no ill-formed one can be written; the boundary value passes (log 7). -/
theorem test_instr_boundary_wellFormed : (Instr.halt 0xFFF#12).wellFormed = true := by decide

/-! ## Decoding: the word of every constructor written out from 30_encoding.md R76 (opcode in bits 15:12), and the
vectors of 95_test_vectors.md section 2.1 -/

theorem test_decode_loadAcMem : decode 0b0001100101000000#16 = .instr (.loadAcMem 0x940#12) := by decide
theorem test_decode_storeAcMem : decode 0b0010000000000011#16 = .instr (.storeAcMem 0x003#12) := by decide
theorem test_decode_loadAcReg : decode 0b0011101010111100#16 = .instr (.loadAcReg 0xABC#12) := by decide
theorem test_decode_storeAcReg : decode 0b0100000000000000#16 = .instr (.storeAcReg 0x000#12) := by decide
theorem test_decode_addAcMem : decode 0b0101001100000000#16 = .instr (.addAcMem 0x300#12) := by decide
theorem test_decode_loadRegOperand : decode 0b0110111111111111#16 = .instr (.loadRegOperand 0xFFF#12) := by decide
theorem test_decode_addAcReg : decode 0b0111000000000000#16 = .instr (.addAcReg 0x000#12) := by decide
theorem test_decode_multAcReg : decode 0b1000000000000000#16 = .instr (.multAcReg 0x000#12) := by decide
theorem test_decode_subtAcReg : decode 0b1001000000000000#16 = .instr (.subtAcReg 0x000#12) := by decide
theorem test_decode_divAcReg : decode 0b1010101111001101#16 = .instr (.divAcReg 0xBCD#12) := by decide
theorem test_decode_jumpToSubrout : decode 0b1011001000000000#16 = .instr (.jumpToSubrout 0x200#12) := by decide
theorem test_decode_retFrmSubrout : decode 0b1100000000000000#16 = .instr (.retFrmSubrout 0x000#12) := by decide
theorem test_decode_halt : decode 0b1111111111111111#16 = .instr (.halt 0xFFF#12) := by decide
theorem test_decode_illegal : decode 0x0FFF#16 = .unrecognizedOpcode 0x0#4 ∧
    decode 0xD123#16 = .unrecognizedOpcode 0xD#4 ∧ decode 0xE000#16 = .unrecognizedOpcode 0xE#4 := by decide
theorem test_table_word : decodeTableWord 16 0x6005 = some (.loadRegOperand 0x005#12) ∧
    decodeTableWord 16 0xD123 = none := by decide

/-! ## Steps -/

/-- A RUNNING core with `w` at PC. -/
def ready (pc w ac gr : Word) : State :=
  { State.reset with pc := pc, ac := ac, gr := gr, mem := Cells.write [] pc.toNat w, runState := .running }

/-- `ready` with `v` in one more cell. -/
def readyMem (pc w ac gr : Word) (a : Nat) (v : Word) : State :=
  { ready pc w ac gr with mem := Cells.write (Cells.write [] pc.toNat w) a v }

/-- `ready` with a stack. -/
def readyStack (pc w ac gr : Word) (slot : Cells) (depth : Nat) : State :=
  { ready pc w ac gr with slot := slot, depth := depth }

/-- The frame of 95_test_vectors.md section 2.5: slot[0..3] = 0x0102, 0xB200, 0x0000, 0x0003. -/
def frame : Cells := [(0, 0x0102#16), (1, 0xB200#16), (3, 0x0003#16)]

/-- The state an outcome answers, or the reset state. -/
def after : Host.Outcome State Fault Refusal → State
  | .next t => t
  | .fault _ => State.reset
  | .refused _ => State.reset

/-- Section 2.3: LOAD_AC_MEM 0x940, and LOAD_AC_MEM of its own cell. -/
theorem test_loadAcMem : (after (step (readyMem 0x100#16 0x1940#16 0#16 0#16 0x940 0x1234#16))).ac = 0x1234#16 ∧
    (after (step (ready 0x123#16 0x1123#16 0#16 0#16))).ac = 0x1123#16 := by decide
/-- Section 2.3: a cell never loaded. -/
theorem test_loadAcMem_unloaded : (after (step (ready 0x100#16 0x1777#16 9#16 0#16))).ac = 0x0000#16 := by decide
/-- Section 2.3: STORE_AC_MEM to the next cell is what the next fetch reads. -/
theorem test_storeAcMem_next_fetch :
    (after (step (after (step (ready 0x050#16 0x2051#16 0xF000#16 0#16))))).runState = .halted := by decide
/-- 41_transfer.md R105: a store to the instruction's own cell completes and overwrites it. -/
theorem test_storeAcMem_self :
    (after (step (ready 0xFFF#16 0x2FFF#16 0x0000#16 0#16))).mem = [] := by decide
/-- Section 2.3: LOAD_AC_REG copies GR and keeps it. -/
theorem test_loadAcReg : ((after (step (ready 0x100#16 0x3000#16 0x9999#16 0x0005#16))).ac,
    (after (step (ready 0x100#16 0x3000#16 0x9999#16 0x0005#16))).gr) = (0x0005#16, 0x0005#16) := by decide
/-- Section 2.3: STORE_AC_REG. -/
theorem test_storeAcReg : (after (step (ready 0x100#16 0x4000#16 0xFFFF#16 0#16))).gr = 0xFFFF#16 := by decide
/-- Section 2.3: LOAD_REG_OPERAND zero-extends. -/
theorem test_loadRegOperand : (after (step (ready 0x100#16 0x6FFF#16 0#16 0xFFFF#16))).gr = 0x0FFF#16 := by decide
/-- Section 2.4: ADD_AC_MEM wraps. -/
theorem test_addAcMem_wraps :
    (after (step (readyMem 0x100#16 0x5300#16 0xFFF0#16 0#16 0x300 0x0020#16))).ac = 0x0010#16 := by decide
/-- Section 2.4: ADD_AC_REG. -/
theorem test_addAcReg : (after (step (ready 0x100#16 0x7000#16 0xFFFF#16 0xFFFF#16))).ac = 0xFFFE#16 := by decide
/-- Section 2.4: MULT_AC_REG keeps the low half. -/
theorem test_multAcReg : (after (step (ready 0x100#16 0x8000#16 0xFFFF#16 0xFFFF#16))).ac = 0x0001#16 ∧
    (after (step (ready 0x100#16 0x8000#16 0x1234#16 0x0010#16))).ac = 0x2340#16 := by decide
/-- Section 2.4: SUBT_AC_REG takes GR from AC and wraps. -/
theorem test_subtAcReg : (after (step (ready 0x100#16 0x9000#16 0x002A#16 0x0002#16))).ac = 0x0028#16 ∧
    (after (step (ready 0x100#16 0x9000#16 0x0000#16 0x0001#16))).ac = 0xFFFF#16 := by decide
/-- Section 2.4: DIV_AC_REG is unsigned. -/
theorem test_divAcReg : (after (step (ready 0x100#16 0xA000#16 0xFFFF#16 0x0002#16))).ac = 0x7FFF#16 ∧
    (after (step (ready 0x100#16 0xA000#16 0x8000#16 0xFFFF#16))).ac = 0x0000#16 := by decide
/-- Section 2.4: DIV_AC_REG by zero: AC stays, FAULTED with cause 2 at pc0. -/
theorem test_divAcReg_zero : let t := after (step (ready 0x00A#16 0xA000#16 0x1234#16 0#16))
    (t.ac, t.runState, t.faultCause.code, t.faultPc, t.faultIr, t.pc) =
      (0x1234#16, .faulted, 2#3, 0x000A#16, 0xA000#16, 0x000B#16) := by decide
/-- Section 2.5: JUMP_TO_SUBROUT 0x200 at 0x101. -/
theorem test_jumpToSubrout : let t := after (step (ready 0x101#16 0xB200#16 0x0000#16 0x0003#16))
    (t.slot, t.depth, t.pc, t.callCount) = (frame, 4, 0x0200#16, 1#32) := by decide
/-- Section 2.5: on a full stack. -/
theorem test_jumpToSubrout_full : let t := after (step (readyStack 0x000#16 0xB000#16 0#16 0#16 [] 1024))
    (t.faultCause.code, t.depth, t.pc, t.callCount) = (3#3, 1024, 0x0001#16, 0#32) := by decide
/-- Section 2.5: RET_FRM_SUBROUT of that frame. -/
theorem test_retFrmSubrout : let t := after (step (readyStack 0x201#16 0xC000#16 0x0003#16 0#16 frame 4))
    (t.gr, t.ac, t.ir, t.pc, t.depth) = (0x0003#16, 0x0000#16, 0xB200#16, 0x0102#16, 0) := by decide
/-- Section 2.5 and program P8: RET_FRM_SUBROUT on an empty stack, with its snapshot. -/
theorem test_retFrmSubrout_empty : let s := ready 0x050#16 0xC000#16 0#16 0#16
    ((after (step s)).faultCause.code, (after (step s)).pc, (stepEmits s).map Snapshot.label) =
      (4#3, 0x0051#16, [some 0#32]) := by decide
/-- Program P1's HALT: the snapshot shows the count of before (3), the state after has 4. -/
theorem test_halt : let s := { ready 0x103#16 0xF000#16 0x000A#16 0x0005#16 with instrCount := 3#32 }
    ((after (step s)).runState, (after (step s)).instrCount, stepEmits s) =
      (.halted, 4#32,
        [⟨.halt, none, 0x0104#16, 0xF000#16, 0x000A#16, 0x0005#16, [], [0#16, 0#16, 0#16], 3#32⟩]) := by decide
/-- Section 2.2: a fetch at 0x1000 changes nothing but the record. -/
theorem test_fetch_out_of_range : let t := after (step { State.reset with
      pc := 0x1000#16, ir := 0x6001#16, runState := .running })
    (t.faultCause.code, t.faultPc, t.faultIr, t.ir, t.pc) =
      (5#3, 0x1000#16, 0x6001#16, 0x6001#16, 0x1000#16) := by decide
/-- Section 2.2: an unloaded cell is illegal. -/
theorem test_illegal : let t := after (step { State.reset with pc := 0x0050#16, runState := .running })
    (t.faultCause.code, t.faultPc, t.ir, t.pc, t.instrCount) = (1#3, 0x0050#16, 0#16, 0x0051#16, 0#32) := by decide

/-- The word placed for the first step after reset is the one that runs. -/
theorem test_withFetchWord : (after (step (State.reset.withFetchWord 16 0x6005))).gr = 0x0005#16 := by decide

/-! ## Stack view, host, blocks, assembler -/

/-- 95_test_vectors.md P2, first snapshot's stack. -/
theorem test_stackView : stackView (readyStack 0#16 0#16 0#16 0#16 frame 4) =
    [(3, 0x0003#16), (2, 0x0000#16), (1, 0xB200#16), (0, 0x0102#16)] := by decide
/-- Section 2.6: `load_word` in IDLE, when RUNNING, and out of range. -/
theorem test_loadWord : (hostLoadWord 0x100 0x6005 State.reset).state.mem = [(0x100, 0x6005#16)] ∧
    (hostLoadWord 0x100 0x6005 (ready 0#16 0#16 0#16 0#16)).accepted = false ∧
    (hostLoadWord 0x1000 0 State.reset).accepted = false ∧
    (hostLoadWord 0 0x10000 State.reset).accepted = false := by decide
/-- Section 2.6: `set_pc(0x1000)` is accepted, `run()` is refused when HALTED. -/
theorem test_setPc_run : (hostSetPc 0x1000#16 State.reset).state.pc = 0x1000#16 ∧
    (hostRun { State.reset with runState := .halted }).accepted = false := by decide
/-- 10_state.md R38, R39: the status codes. -/
theorem test_status : let t := statusOf (after (step (ready 0x00A#16 0xA000#16 0x1234#16 0#16)))
    (t.runState, t.faultCause, t.depth) = (3#2, 2#3, 0#11) := by decide
/-- 10_state.md R42: a push onto a full stack overflows, a pop from an empty one underflows; depth and view. -/
theorem test_executionStack : (executionStack [] 1024 (.push 1#16)).overflow = true ∧
    (executionStack [] 0 .pop).underflow = true ∧
    ((executionStack frame 4 .pop).popData, (executionStack frame 4 .pop).depth) = (0x0003#16, 4#11) ∧
    (executionStack frame 2 .idle).view = [(1, 0xB200#16), (0, 0x0102#16)] := by decide
/-- 10_state.md R47 and 43_control.md R122: the register writes of a return, from the popped Words. -/
theorem test_aluDispatch_return :
    let o := aluDispatch ⟨0xC#4, 0#12, true, 9#16, 9#16, 0#16, #v[3#16, 0#16, 0xB200#16, 0x0102#16], 4#11⟩
    (o.grWrite, o.acWrite, o.irWrite, o.pcSource, o.countInstr) =
      (some 3#16, some 0#16, some 0xB200#16, .popped 0x0102#16, true) := by decide
/-- 95_test_vectors.md P1's first lines, and P12. -/
theorem test_assemble : assemble ".org 0x100\nLOAD_REG_OPERAND 5 ; five\nLOAD_AC_REG".toList =
    .ok [(0x100, 0x6005), (0x101, 0x3000)] := by decide
/-- 30_encoding.md R83, R84: a label, an operand out of range. -/
theorem test_assemble_label : assemble "HALT\nsub:\nJUMP_TO_SUBROUT sub".toList = .ok [(0, 0xF000), (1, 0xB001)] ∧
    assemble "LOAD_AC_MEM 0x1000".toList = .error .outOfRange := by decide

/-! ## Witnesses: for each statement with hypotheses, a state and operands that meet them -/

theorem wf_ready : Memory.wf (ready 0x100#16 0x2940#16 7#16 3#16).mem = true := by decide

theorem inv_empty_stack (s : State) (hm : Memory.wf s.mem = true) (hs : s.slot = []) (hd : s.depth = 0)
    (hf : s.faultCause = .noFault) (hr : s.runState ≠ .faulted) : s.Inv where
  memWf := hm
  slotsWf := by rw [hs]; rfl
  depthLe := by rw [hd]; decide
  depthFrames := by rw [hd]; decide
  returnAddress := fun k h => by omega
  savedCall := fun k h => by omega
  faultRecorded := by simp [hf, hr]

/-- A state inside a subroutine meets the invariant: one live frame. -/
theorem witness_inv_one_frame : (readyStack 0x201#16 0xC000#16 3#16 3#16 frame 4).Inv where
  memWf := by decide
  slotsWf := by decide
  depthLe := by decide
  depthFrames := by decide
  returnAddress := fun k h => by
    have : k = 0 := by
      change 4 * k < 4 at h
      omega
    subst this; decide
  savedCall := fun k h => by
    have : k = 0 := by
      change 4 * k < 4 at h
      omega
    subst this; decide
  faultRecorded := by decide

/-- EncodeInvertsDecode, at the top of the table. -/
theorem witness_decoded : decode 0xFFFF#16 = .instr (.halt 0xFFF#12) := by decide
/-- LoadAcMemLoadsCell: an unlisted cell; an instruction at its own address, at the top of memory. -/
theorem witness_unlisted : (0x777#12 : Addr).toNat ∉ (ready 0x100#16 0x1777#16 0#16 0#16).mem.map Prod.fst := by decide
theorem witness_load_self : let s := ready 0xFFF#16 0x1FFF#16 0#16 0#16
    s.runState = .running ∧ s.pc = (0xFFF#12 : Addr).setWidth 16 ∧
      Cells.read s.mem (0xFFF#12 : Addr).toNat = 0x1000#16 ||| (0xFFF#12 : Addr).setWidth 16 := by decide
/-- AddAcMemAddsCell, third clause. -/
theorem witness_add_self : let s := ready 0xFFF#16 0x5FFF#16 1#16 0#16
    s.runState = .running ∧ s.pc = (0xFFF#12 : Addr).setWidth 16 ∧
      Cells.read s.mem (0xFFF#12 : Addr).toNat = 0x5000#16 ||| (0xFFF#12 : Addr).setWidth 16 := by decide
/-- StoreAcMemWritesCell and StoreSeenByNextFetch: a store to the next cell, of a HALT. -/
theorem witness_store_next : let s := ready 0xFFE#16 0x2FFF#16 0xF000#16 0#16
    Memory.wf s.mem = true ∧ s.nextIs (.storeAcMem 0xFFF#12) ∧ (0xFFF#12 : Addr).toNat = s.pc.toNat + 1 ∧
      (after (step s)).pc = (0xFFF#12 : Addr).setWidth 16 ∧ decode s.ac = .instr (.halt 0#12) := by decide
/-- StoreAcMemWritesCell, last clause: a load and a store that follow each other. -/
theorem witness_load_store : ∃ t u, exec (.loadAcMem 0x100#12) (ready 0x100#16 0x1100#16 0#16 0#16) = .next t ∧
    exec (.storeAcMem 0x100#12) t = .next u ∧ Memory.wf (ready 0x100#16 0x1100#16 0#16 0#16).mem = true :=
  ⟨_, _, rfl, rfl, by decide⟩
/-- StoreAcRegCopiesAc, third clause: a GR above 0x0FFF appears. -/
theorem witness_wide_gr : ∃ t, exec (.storeAcReg 0#12) (ready 0#16 0x4000#16 0xFFFF#16 0#16) = .next t ∧
    t.gr ≠ (ready 0#16 0x4000#16 0xFFFF#16 0#16).gr ∧ 0x0FFF < t.gr.toNat := ⟨_, rfl, by decide, by decide⟩
/-- LoadRegOperandZeroExtends, third clause. -/
theorem witness_zero_operand : ∃ t, exec (.loadRegOperand 0#12) (ready 0#16 0x6000#16 1#16 7#16) = .next t ∧
    (ready 1#16 0xA000#16 1#16 0#16).gr = t.gr := ⟨_, rfl, rfl⟩
/-- AddAcRegAddsGr, third clause. -/
theorem witness_load_reg : ∃ t, exec (.loadAcReg 0#12) (ready 0#16 0x3000#16 1#16 0x8000#16) = .next t := ⟨_, rfl⟩
/-- DivAcRegFloors and DivisionByZeroFaults: the smallest nonzero divisor, and zero. -/
theorem witness_div : (ready 0#16 0xA000#16 1#16 1#16).gr ≠ 0#16 ∧
    (ready 0xFFF#16 0xA000#16 1#16 0#16).nextIs (.divAcReg 0#12) ∧ (ready 0xFFF#16 0xA000#16 1#16 0#16).gr = 0#16 := by
  decide
/-- JumpToSubroutPushesFrame, ReturnUndoesCall, StackOverflowFaults: an empty stack, the last room, full. -/
theorem witness_jump : let s := fun d => readyStack 0xFFF#16 0xB100#16 1#16 2#16 [] d
    Slots.wf (s 0).slot = true ∧ Config.frameWords ∣ (s 0).depth ∧ (s 0).depth < 1024 ∧
      Config.frameWords ∣ (s 1020).depth ∧ (s 1020).depth < 1024 ∧ (s 1020).depth = 4 * 255 ∧
      (s 1024).depth = 4 * 256 ∧ (s 1020).nextIs (.jumpToSubrout 0x100#12) ∧
      (s 1024).nextIs (.jumpToSubrout 0x100#12) := by decide
/-- ReturnUndoesCall and the last clause of RetFrmSubroutRestoresFrame: the return from the state the call left. -/
theorem witness_call_return : ∃ t, exec (.jumpToSubrout 0x100#12) (readyStack 5#16 0xB100#16 1#16 2#16 [] 1020) =
    .next t ∧ t.depth = t.depth ∧ ∀ k, k < t.depth → Cells.read t.slot k = Cells.read t.slot k :=
  ⟨_, exec_jumpToSubrout_room _ (by decide), rfl, fun _ _ => rfl⟩
/-- RetFrmSubroutRestoresFrame and StackUnderflowFaults: one frame, a full stack, an empty one. -/
theorem witness_ret : let s := fun d => readyStack 0x201#16 0xC000#16 1#16 2#16 frame d
    (Config.frameWords ∣ (s 4).depth ∧ 0 < (s 4).depth) ∧ (Config.frameWords ∣ (s 1024).depth ∧ 0 < (s 1024).depth) ∧
      (s 0).depth = 0 ∧ (s 0).nextIs (.retFrmSubrout 0#12) := by decide
/-- StepRunsDecodedInstruction and FetchReadsCellAtPc: PC at its last fetchable value, and past it. -/
theorem witness_fetch : (ready 0xFFF#16 0x6001#16 0#16 0#16).nextIs (.loadRegOperand 1#12) ∧
    (ready 0xFFF#16 0x6001#16 0#16 0#16).pc.extractLsb' 12 4 = 0#4 ∧
    (ready 0x1000#16 0x6001#16 0#16 0#16).pc.extractLsb' 12 4 ≠ 0#4 ∧
    (ready 0x1000#16 0x6001#16 0#16 0#16).runState = .running := by decide
/-- FetchOutOfRangeFaults: the first and the last PC out of range. -/
theorem witness_out_of_range : 0x1000 ≤ (ready 0x1000#16 0#16 0#16 0#16).pc.toNat ∧
    0x1000 ≤ (ready 0xFFFF#16 0#16 0#16 0#16).pc.toNat := by decide
/-- IllegalOpcodeFaults: one word for each of the three opcodes. -/
theorem witness_illegal_0 : (ready 0xFFF#16 0x0FFF#16 0#16 0#16).runState = .running ∧
    (ready 0xFFF#16 0x0FFF#16 0#16 0#16).pc.toNat < 0x1000 ∧
    (Cells.read (ready 0xFFF#16 0x0FFF#16 0#16 0#16).mem 0xFFF).extractLsb' 12 4 = 0x0#4 :=
  ⟨rfl, by decide, by decide⟩
theorem witness_illegal_D : (ready 0xFFF#16 0xD123#16 0#16 0#16).runState = .running ∧
    (ready 0xFFF#16 0xD123#16 0#16 0#16).pc.toNat < 0x1000 ∧
    (Cells.read (ready 0xFFF#16 0xD123#16 0#16 0#16).mem 0xFFF).extractLsb' 12 4 = 0xD#4 :=
  ⟨rfl, by decide, by decide⟩
theorem witness_illegal_E : (ready 0xFFF#16 0xE000#16 0#16 0#16).runState = .running ∧
    (ready 0xFFF#16 0xE000#16 0#16 0#16).pc.toNat < 0x1000 ∧
    (Cells.read (ready 0xFFF#16 0xE000#16 0#16 0#16).mem 0xFFF).extractLsb' 12 4 = 0xE#4 :=
  ⟨rfl, by decide, by decide⟩
/-- OnlyRunningSteps: a HALTED core, and an IDLE core that `run()` starts. -/
theorem witness_not_running : State.reset.runState ≠ .running ∧ State.reset.runState = .idle ∧
    (hostApply .run State.reset).state.runState ≠ .idle ∧
    ({ State.reset with runState := .halted } : State).runState = .halted := by decide
/-- RunningStepOutcomes, InstrCountRule, FaultEntryIsPrecise: a RUNNING core that steps to FAULTED, and one that
steps and does not. -/
theorem witness_step_faults : let s := ready 0#16 0xA000#16 1#16 0#16
    s.runState = .running ∧ s.depth ≤ 1024 ∧ Config.frameWords ∣ s.depth ∧
      ∃ t, step s = .next t ∧ t.runState = .faulted :=
  ⟨rfl, by decide, by decide, _, rfl, by decide⟩
theorem witness_step_completes : let s := ready 0#16 0xA000#16 1#16 2#16
    s.runState = .running ∧ s.depth ≤ 1024 ∧ Config.frameWords ∣ s.depth ∧
      ∃ t, step s = .next t ∧ t.runState ≠ .faulted :=
  ⟨rfl, by decide, by decide, _, rfl, by decide⟩
/-- CallCountRule, first clause. -/
theorem witness_step_jump : ∃ t, step (ready 0#16 0xB000#16 1#16 2#16) = .next t ∧ t.runState ≠ .faulted ∧
    (ready 0#16 0xB000#16 1#16 2#16).nextIs (.jumpToSubrout 0#12) := ⟨_, rfl, by decide, by decide⟩
/-- OnlyStoresWriteMemory (first clause), OnlyCallAndReturnMoveStackAndPc, CallCountRule (second clause),
RunningStepOutcomes (last clause): a step of an instruction that is neither a store, nor a call, nor a return, nor
HALT. -/
theorem witness_plain : let s := ready 0#16 0xA000#16 1#16 2#16
    (∃ t, step s = .next t) ∧ s.pc.toNat < 0x1000 ∧
      ∀ a, ¬ s.nextIs (.storeAcMem a) ∧ ¬ s.nextIs (.jumpToSubrout a) ∧ ¬ s.nextIs (.retFrmSubrout a) ∧
        ¬ s.nextIs (.halt a) := by
  have h : decode (Cells.read (ready 0#16 0xA000#16 1#16 2#16).mem 0) = .instr (.divAcReg 0#12) := by decide
  refine ⟨step_next_of_running rfl, by decide, fun a => ⟨?_, ?_, ?_, ?_⟩⟩ <;>
    exact fun h' => nomatch h.symm.trans h'.2.2
/-- OnlyStoresWriteMemory, second and third clauses. -/
theorem witness_store : (∃ t, step (ready 0#16 0x2940#16 5#16 0#16) = .next t) ∧
    (ready 0#16 0x2940#16 5#16 0#16).nextIs (.storeAcMem 0x940#12) ∧ HostCommand.run ≠ .reset ∧
    ∀ v, HostCommand.run ≠ .loadWord 0 v := ⟨step_next_of_running rfl, by decide, by decide, fun _ h => nomatch h⟩
/-- UnlistedRegistersUnwritten and UnlistedRegistersUnread: LOAD_AC_MEM neither writes GR nor reads AC or GR. -/
theorem witness_register_table : regWrites (.loadAcMem 0#12) .gr = false ∧ regReads (.loadAcMem 0#12) .ac = false ∧
    regReads (.loadAcMem 0#12) .gr = false ∧
    ∃ t, exec (.loadAcMem 0#12) (ready 0#16 0x1000#16 0#16 0#16) = .next t :=
  ⟨rfl, rfl, rfl, _, rfl⟩
/-- PushCapacityIs1024 and PopGivesLastPushed: the last free slot, a full stack, an empty stack, 1024 Words. -/
theorem witness_push : (readyStack 0#16 0#16 0#16 0#16 [] 1023).depth < 1024 ∧
    (readyStack 0#16 0#16 0#16 0#16 [] 1024).depth = 1024 ∧ State.reset.depth = 0 ∧
    Slots.wf (readyStack 0#16 0#16 0#16 0#16 [] 1023).slot = true ∧
    (List.replicate 1024 (0#16 : Word)).length = 1024 := ⟨by decide, rfl, rfl, rfl, List.length_replicate⟩
theorem witness_push_ok : ∃ t, push 7#16 (readyStack 0#16 0#16 0#16 0#16 [] 1023) = .ok t :=
  ⟨_, push_room _ (by decide)⟩
/-- ExecutionStackPorts: a push into the last free slot and onto a full stack, a pop of the last Word and of none. -/
theorem witness_ports : Slots.wf frame = true ∧ 1024 ≤ 1024 ∧ 1023 < 1024 ∧ 0 < 1 ∧
    (StackIn.push 7#16).pushEn = true ∧ (StackIn.push 7#16).popEn = false ∧
    StackIn.pop.popEn = true ∧ StackIn.pop.pushEn = false ∧
    (executionStack frame 1024 (.push 7#16)).overflow = true ∧ (executionStack frame 0 .pop).underflow = true := by
  decide
/-- SnapshotShowsStateAfterFetch: an event of either kind. -/
theorem witness_snapshot : let s := fun w => ready 0x050#16 w 0#16 0#16
    (∃ e, e ∈ stepEmits (s 0xC000#16) ∧ e.kind = .ret) ∧ (∃ e, e ∈ stepEmits (s 0xF000#16) ∧ e.kind = .halt) ∧
      (s 0xC000#16).runState = .running := ⟨⟨_, List.mem_singleton.2 rfl, rfl⟩, ⟨_, List.mem_singleton.2 rfl, rfl⟩, rfl⟩
/-- StepKeepsInvariant, HostKeepsInvariant, EveryRunEnds, DatapathIsStep: a RUNNING state that meets the invariant
and steps, with a live frame and without. -/
theorem witness_inv_running : let s := ready 0xFFF#16 0x6001#16 0#16 0#16
    s.Inv ∧ s.runState = .running ∧ ∃ t, step s = .next t :=
  ⟨inv_empty_stack _ (by decide) rfl rfl rfl (by decide), rfl, step_next_of_running rfl⟩
/-- StatusAndStaleSlotsInvisible: two states that differ in a counter and in a stale slot. -/
theorem witness_same_for_programs : let s := ready 0xFFF#16 0x6001#16 0#16 0#16
    let t := { s with instrCount := 9#32, slot := [(0, 5#16)] }
    s.Inv ∧ t.Inv ∧ s.runState = .running ∧ t.runState = .running ∧ SameForPrograms s t ∧ ∃ u, step s = .next u :=
  ⟨inv_empty_stack _ (by decide) rfl rfl rfl (by decide),
    ⟨by decide, by decide, by decide, by decide, fun k h => absurd h (Nat.not_lt_zero _),
      fun k h => absurd h (Nat.not_lt_zero _), by decide⟩,
    rfl, rfl, ⟨rfl, rfl, rfl, rfl, rfl, rfl, fun k h => absurd h (Nat.not_lt_zero k)⟩, step_next_of_running rfl⟩
/-- RunHasOneEnd: a core that is not RUNNING. -/
theorem witness_stopped : ({ State.reset with runState := .halted } : State).runState ≠ .running := by decide
/-- HostOperationsOnlyInIdle: IDLE with the first and the last address and value, each ground of a refusal. -/
theorem witness_host : Memory.wf State.reset.mem = true ∧ State.reset.runState = .idle ∧ 0xFFF ≤ 0xFFF ∧ 0xFFFF ≤ 0xFFFF ∧
    (0xFFF < 0x1000) ∧ (0xFFFF < 0x10000) ∧ (ready 0#16 0#16 0#16 0#16).runState ≠ .idle := by decide
/-- BootLoadsImage: an image with one cell loaded twice, at the top of memory. -/
theorem witness_boot : ∀ p ∈ [((0xFFF : Nat), (0xFFFF : Nat)), (0xFFF, 0)], p.1 ≤ 0xFFF ∧ p.2 ≤ 0xFFFF := by decide
/-- AssemblerEncodesOperands: an opcode with an operand, one without, and the numbers where the clauses meet. -/
theorem witness_assembler : takesOperand 0xB#4 = true ∧ takesOperand 0xF#4 = false ∧
    ("HALT".toList, 0xF#4) ∈ asmMnemonics ∧ 0xFFF ≤ 0xFFF ∧ 0xFFF < 0x1000 := by decide

end Sys2Proof.Tests.Slice0
end

section
/-! The execution stack: what pushes fill and what the diagnostic view lists (10_state.md R33, R35). -/

namespace Sys2Proof.Machine

/-- Pushes that fit the free slots all succeed, and each one occupies a slot. -/
theorem pushes_fit : ∀ (vs : List Word) {s : State}, s.depth + vs.length ≤ Config.stackWords →
    ∃ t, vs.foldlM (fun s v => push v s) s = .ok t ∧ t.depth = s.depth + vs.length
  | [], s, _ => ⟨s, rfl, rfl⟩
  | v :: vs, s, h => by
    rw [List.length_cons] at h
    obtain ⟨t, hrun, hdepth⟩ :=
      pushes_fit vs (s := { s with slot := Cells.write s.slot s.depth v, depth := s.depth + 1 }) (by
        show s.depth + 1 + vs.length ≤ _
        omega)
    refine ⟨t, ?_, ?_⟩
    · rw [List.foldlM_cons, push_room v (by omega)]
      exact hrun
    · calc t.depth = s.depth + 1 + vs.length := hdepth
        _ = s.depth + (v :: vs).length := by rw [List.length_cons]; omega

/-- Settles O38: the full and the free case are `push_full` and `push_room`; the 1024 pushes are `pushes_fit`. -/
theorem pushCapacityIs1024 : Obligations.PushCapacityIs1024 := by
  refine ⟨fun v s h => push_full v h, fun v s hwf h => ?_, fun vs s hempty hlen => ?_⟩
  · refine ⟨_, push_room v (Nat.ne_of_lt h), Cells.read_write_same s.depth v hwf,
      fun k hk => Cells.read_write_other s.slot v hk, rfl, Nat.sub_add_eq .., fun r _ => ?_, rfl, ⟨rfl, rfl⟩,
      ⟨rfl, rfl, rfl, rfl⟩⟩
    cases r <;> rfl
  · have hfits : s.depth + vs.length = Config.stackWords := by rw [hempty, hlen]; rfl
    obtain ⟨t, hrun, hdepth⟩ := pushes_fit vs hfits.le
    have hfull : t.depth = Config.stackWords := hdepth.trans hfits
    exact ⟨t, hrun, hfull, fun w => push_full w hfull⟩

theorem slotsDown_length (slot : Cells) (n : Nat) : (slotsDown slot n).length = n := by
  induction n with
  | zero => rfl
  | succ n ih => rw [slotsDown, List.length_cons, ih]

/-- The entry at position `k` is the slot `k` below the top one. -/
theorem slotsDown_getElem? (slot : Cells) : ∀ {n k : Nat}, k < n →
    (slotsDown slot n)[k]? = some (n - 1 - k, Cells.read slot (n - 1 - k))
  | _ + 1, 0, _ => rfl
  | n + 1, k + 1, h => by
    have hindex : n + 1 - 1 - (k + 1) = n - 1 - k := by omega
    rw [slotsDown, List.getElem?_cons_succ, slotsDown_getElem? slot (by omega), hindex]

/-- Settles O40: the view is `slotsDown` from the depth, read off by its length and its entries. -/
theorem stackViewListsOccupiedSlots : Obligations.StackViewListsOccupiedSlots := by
  intro s
  have hlen : (stackView s).length = s.depth := slotsDown_length s.slot s.depth
  exact ⟨hlen, fun _ hk => slotsDown_getElem? s.slot hk,
    fun hempty => List.eq_nil_of_length_eq_zero (hlen.trans hempty)⟩

end Sys2Proof.Machine
end

section
/-! The encoding: the field functions by shift and mask, what a Word decodes to by its opcode, and the mask and match
of an instruction (30_encoding.md R73, R74, R76, R82). -/

namespace Sys2Proof.Machine

open Laws.Encoding (decodeOpcode_encodeFields decodeAddress_encodeFields)

/-! ## The field functions -/

theorem decodeOpcode_toNat (w : Word) : (decodeOpcode w).toNat = (w.toNat >>> 12) &&& 0xF := by
  rw [decodeOpcode, BitVec.extractLsb'_toNat]
  exact (Nat.and_two_pow_sub_one_eq_mod (w.toNat >>> 12) 4).symm

theorem decodeAddress_toNat (w : Word) : (decodeAddress w).toNat = w.toNat &&& 0xFFF := by
  rw [decodeAddress, BitVec.extractLsb'_toNat]
  exact (Nat.and_two_pow_sub_one_eq_mod w.toNat 12).symm

theorem encodeFields_toNat (o : Opcode) (a : Addr) : (encodeFields o a).toNat = (o.toNat <<< 12) ||| a.toNat := by
  have ho := o.isLt
  have ha := a.isLt
  have hshift : o.toNat <<< 12 < 2 ^ 16 := by rw [Nat.shiftLeft_eq]; omega
  rw [encodeFields, BitVec.toNat_or, BitVec.toNat_shiftLeft, BitVec.toNat_setWidth_of_le (by decide),
    BitVec.toNat_setWidth_of_le (by decide), Nat.mod_eq_of_lt hshift]

/-- The two fields are the whole Word (30_encoding.md R72). -/
theorem encodeFields_decode (w : Word) : encodeFields (decodeOpcode w) (decodeAddress w) = w := by
  ext i hi
  by_cases hfield : i < 12
  · simp [encodeFields, decodeAddress, hi, hfield]
  · have hindex : 12 + (i - 12) = i := by omega
    have hopcode : i - 12 < 4 := by omega
    simp [encodeFields, decodeOpcode, decodeAddress, hi, hfield, hindex, hopcode]

theorem encodeFields_and (o p : Opcode) (a b : Addr) :
    encodeFields o a &&& encodeFields p b = encodeFields (o &&& p) (a &&& b) := by
  ext i hi
  by_cases hfield : i < 12
  · simp [encodeFields, hfield]
  · have ha : a.getLsbD i = false := BitVec.getLsbD_of_ge a i (by omega)
    have hb : b.getLsbD i = false := BitVec.getLsbD_of_ge b i (by omega)
    simp [encodeFields, hfield, ha, hb]

/-- The mask 0xF000 keeps the opcode where it stands and clears the field. -/
theorem and_opcodeMask (w : Word) : w &&& 0xF000#16 = encodeFields (decodeOpcode w) 0#12 :=
  calc w &&& 0xF000#16
      = encodeFields (decodeOpcode w) (decodeAddress w) &&& encodeFields (BitVec.allOnes 4) 0#12 := by
        rw [encodeFields_decode]; rfl
    _ = encodeFields (decodeOpcode w) 0#12 := by
        rw [encodeFields_and, BitVec.and_allOnes, BitVec.and_zero]

/-- A Word matches a row of the opcode table under the mask 0xF000 exactly when its opcode is the row's. -/
theorem and_opcodeMask_eq_iff (w : Word) (o : Opcode) :
    w &&& 0xF000#16 = encodeFields o 0#12 ↔ decodeOpcode w = o := by
  rw [and_opcodeMask]
  constructor
  · intro h
    rw [← decodeOpcode_encodeFields (decodeOpcode w) 0#12, h, decodeOpcode_encodeFields]
  · exact fun h => h ▸ rfl

/-- Settles O4: the shift and mask forms, and the round trips `encodeFields_decode` and
`decodeOpcode_encodeFields` with `decodeAddress_encodeFields`. -/
theorem fieldsRoundTrip : Obligations.FieldsRoundTrip :=
  ⟨fun w => ⟨decodeOpcode_toNat w, decodeAddress_toNat w⟩, encodeFields_toNat, encodeFields_decode,
    fun o a => ⟨decodeOpcode_encodeFields o a, decodeAddress_encodeFields o a⟩⟩

/-! ## The opcode table -/

theorem validOpcode_eq_false_iff :
    ∀ o : Opcode, validOpcode o = false ↔ o = 0x0#4 ∨ o = 0xD#4 ∨ o = 0xE#4 := by decide

theorem decodeFields_opcode_operand (i : Instr) : decodeFields i.opcode i.operand = .instr i := by
  cases i <;> rfl

/-- The opcode table from the opcode's side: a valid opcode gives the one instruction with that opcode and field, any
other is reported (30_encoding.md R76, R82). -/
theorem decodeFields_cases (o : Opcode) (a : Addr) :
    (validOpcode o = true ∧ ∃ i : Instr, decodeFields o a = .instr i ∧ i.opcode = o ∧ i.operand = a) ∨
      (validOpcode o = false ∧ decodeFields o a = .unrecognizedOpcode o) := by
  cases hvalid : validOpcode o with
  | false =>
    refine .inr ⟨rfl, ?_⟩
    rcases (validOpcode_eq_false_iff o).1 hvalid with rfl | rfl | rfl <;> rfl
  | true =>
    refine .inl ⟨rfl, ?_⟩
    unfold decodeFields
    split
    case h_14 =>
      simp only [validOpcode, Bool.and_eq_true, bne_iff_ne, imp_false] at *
      bv_omega
    all_goals exact ⟨_, rfl, BitVec.eq_of_toNat_eq (Eq.symm ‹o.toNat = _›), rfl⟩

/-- A Word decodes to an instruction exactly when its two fields are the instruction's opcode and field. -/
theorem decode_eq_instr_iff (w : Word) (i : Instr) :
    decode w = .instr i ↔ decodeOpcode w = i.opcode ∧ decodeAddress w = i.operand := by
  constructor
  · intro h
    rcases decodeFields_cases (decodeOpcode w) (decodeAddress w) with ⟨-, j, hj, hopcode, hfield⟩ | ⟨-, hillegal⟩
    · obtain rfl : j = i := Decoded.instr.inj (hj.symm.trans h)
      exact ⟨hopcode.symm, hfield.symm⟩
    · exact nomatch hillegal.symm.trans h
  · rintro ⟨hopcode, hfield⟩
    rw [decode, hopcode, hfield, decodeFields_opcode_operand]

theorem validOpcode_iff_decode_instr (w : Word) :
    validOpcode (decodeOpcode w) = true ↔ ∃ i, decode w = .instr i := by
  rcases decodeFields_cases (decodeOpcode w) (decodeAddress w) with ⟨hvalid, i, hi, -⟩ | ⟨hinvalid, hillegal⟩
  · exact ⟨fun _ => ⟨i, hi⟩, fun _ => hvalid⟩
  · rw [hinvalid]
    exact ⟨nofun, fun ⟨_, hi⟩ => nomatch hillegal.symm.trans hi⟩

/-- The illegal Words are those whose opcode the decoder calls not valid; the opcode reported is their own
(30_encoding.md R79). -/
theorem decode_eq_unrecognized_iff (w : Word) :
    decode w = .unrecognizedOpcode (decodeOpcode w) ↔ validOpcode (decodeOpcode w) = false := by
  rcases decodeFields_cases (decodeOpcode w) (decodeAddress w) with ⟨hvalid, i, hi, -⟩ | ⟨hinvalid, hillegal⟩
  · rw [hvalid]
    exact ⟨fun h => (nomatch hi.symm.trans h), nofun⟩
  · exact ⟨fun _ => hinvalid, fun _ => hillegal⟩

/-- A row of the opcode table: a constructor that keeps its field under one opcode is encoded by that opcode's mask
and match. -/
theorem encodedAs_of_opcode {c : Addr → Instr} {top : Word} {o : Opcode} (htop : top = encodeFields o 0#12)
    (hopcode : ∀ a, (c a).opcode = o) (hfield : ∀ a, (c a).operand = a) : EncodedAs top c := by
  refine ⟨fun w => ?_, fun a => ?_⟩
  · rw [htop, and_opcodeMask_eq_iff, decode_eq_instr_iff, hopcode, hfield]
    exact (and_iff_left rfl).symm
  · rw [encode, hopcode, hfield, htop]
    simp [encodeFields]

/-- Settles O5: each row is `encodedAs_of_opcode`; the illegal opcodes and the `valid` output are
`decode_eq_unrecognized_iff` and `validOpcode_iff_decode_instr`. -/
theorem opcodeSelectsInstruction : Obligations.OpcodeSelectsInstruction := by
  refine ⟨?_, ?_, ?_, ?_, ?_, ?_, ?_, ?_, ?_, ?_, ?_, ?_, ?_, fun w => ⟨?_, validOpcode_iff_decode_instr w⟩⟩
  case refine_14 => rw [decode_eq_unrecognized_iff, validOpcode_eq_false_iff]
  all_goals exact encodedAs_of_opcode rfl (fun _ => rfl) (fun _ => rfl)

/-! ## Unused fields -/

/-- A mnemonic without an operand assembles to its opcode over a zero field (30_encoding.md R84, R86). -/
theorem asmOpWord_bare (labels : List (List Char × Nat)) {o : Opcode} (h : takesOperand o = false) :
    asmOpWord labels o none = .ok (encodeFields o 0#12) := by
  simp [asmOpWord, h]

/-- Settles O6: neither `exec` nor `emits` reads the field of the eight instructions, and `asmOpWord_bare` assembles
their bare mnemonics. -/
theorem unusedFieldIgnored : Obligations.UnusedFieldIgnored := by
  refine ⟨fun a b s c hc => ?_, encodedAs_of_opcode rfl (fun _ => rfl) (fun _ => rfl), fun labels a c hc => ?_⟩
  all_goals simp only [List.mem_cons, List.not_mem_nil, or_false] at hc
  · rcases hc with rfl | rfl | rfl | rfl | rfl | rfl | rfl | rfl <;> exact ⟨rfl, rfl⟩
  · rcases hc with rfl | rfl | rfl | rfl | rfl | rfl | rfl | rfl <;> exact asmOpWord_bare labels rfl

end Sys2Proof.Machine
end

section
/-! The step on an illegal opcode (30_encoding.md R79; 60_exceptions.md R129). -/

namespace Sys2Proof.Machine

/-- The fault is raised after the fetch and before any other effect. -/
theorem step_illegal {s : State} {o : Opcode} (hrun : s.runState = .running) (hpc : s.pc.toNat < Config.memWords)
    (h : decode (Cells.read s.mem s.pc.toNat) = .unrecognizedOpcode o) :
    step s = .next (faultEntry .unrecognizedOpcode s.pc (fetch s)) := by
  rw [step_running hrun, cycle_in_range ((fetchOk_iff _).2 hpc),
    decodeAndExec_illegal (o := o) (by rw [fetch_ir, fetchWord_eq hpc, h]), pcOfCurrent_fetch]

/-- A fault entry right after the fetch changes nothing that the fetch left, but the record and `run_state`. -/
theorem fetchedOnly_faultEntry {s : State} (cause : FaultCause) (pc0 : Word) (hpc : s.pc.toNat < Config.memWords) :
    FetchedOnly s (faultEntry cause pc0 (fetch s)) where
  ir := fetchWord_eq hpc
  pc := rfl
  ac := rfl
  gr := rfl
  mem := rfl
  stack := ⟨rfl, rfl⟩
  counts := ⟨rfl, rfl⟩

theorem faultedWith_faultEntry (cause : FaultCause) (pc0 : Word) (s : State) :
    FaultedWith cause.code pc0 (faultEntry cause pc0 s) :=
  ⟨rfl, rfl, rfl, rfl⟩

/-- Settles O24: the step is `step_illegal`, and what it leaves is a fault entry after the fetch. -/
theorem illegalOpcodeFaults : Obligations.IllegalOpcodeFaults := by
  intro s hrun hpc hopcode
  have hdecode := (decode_eq_unrecognized_iff _).2 ((validOpcode_eq_false_iff _).2 hopcode)
  have hword : (fetch s).ir = Cells.read s.mem s.pc.toNat := fetchWord_eq hpc
  exact ⟨_, step_illegal hrun hpc hdecode, faultedWith_faultEntry .unrecognizedOpcode s.pc _,
    fetchedOnly_faultEntry _ _ hpc, stepEmits_illegal hpc hdecode,
    congrArg (BitVec.extractLsb' 12 4) hword, step_faulted rfl⟩

end Sys2Proof.Machine
end

section
/-! The execution cycle: the fetch and its range check, the core that does not run, the outcomes of a step and the
count of calls (40_execution_cycle.md R90, R96, R97, R98). -/

namespace Sys2Proof.Machine

variable {s t : State}

/-! ## Fetch -/

/-- A fetch out of range is raised before any state changes (40_execution_cycle.md R91). -/
theorem step_out_of_range (hrun : s.runState = .running) (hpc : fetchOk s.pc = false) :
    step s = .next (faultEntry .fetchOutOfRange s.pc s) :=
  (step_running hrun).trans (cycle_out_of_range hpc)

/-- The fetch reads `MemRead(PC[11:0])` (40_execution_cycle.md R90). -/
theorem fetchWord_eq_memRead (s : State) : fetchWord s = s.memRead (s.pc.extractLsb' 0 12) := by
  rw [fetchWord, BitVec.setWidth_eq_extractLsb' (by decide)]

/-- Settles O22: `step_out_of_range` on one side of the range check, `cycle_in_range` on the other. -/
theorem fetchReadsCellAtPc : Obligations.FetchReadsCellAtPc := by
  refine fun s hrun => ⟨fun htop => ?_, fun htop => ?_⟩
  · have hbad : fetchOk s.pc = false := Bool.eq_false_iff.2 (mt (fetchOk_iff_top_zero s.pc).1 htop)
    exact ⟨_, step_out_of_range hrun hbad, faultedWith_faultEntry .fetchOutOfRange s.pc s⟩
  · have hok : fetchOk s.pc = true := (fetchOk_iff_top_zero s.pc).2 htop
    have hrange : s.pc.toNat < 4096 := (fetchOk_iff s.pc).1 hok
    have hpc : (fetch s).pc.toNat = (s.pc.toNat + 1) % 2 ^ 16 := BitVec.toNat_add s.pc 1#16
    exact ⟨(step_running hrun).trans (cycle_in_range hok), fetchWord_eq_memRead s, hpc, by omega⟩

/-! ## A core that does not run -/

theorem stepEmits_of_not_running (h : s.runState ≠ .running) : stepEmits s = [] := by
  unfold stepEmits
  split
  case h_1 hrun => exact absurd hrun h
  all_goals rfl

theorem step_ne_next_of_not_running (h : s.runState ≠ .running) (t : State) : step s ≠ .next t :=
  fun hstep => h (step_cases hstep).1

/-- Outside IDLE every operation but `reset` is refused (70_reset_and_hazards.md R151 to R153). -/
theorem hostApply_refused {c : HostCommand} (hc : c ≠ .reset) (h : s.runState ≠ .idle) :
    hostApply c s = ⟨s, false⟩ := by
  cases c with
  | reset => exact absurd rfl hc
  | loadWord a v => simp [hostApply, hostLoadWord, h]
  | setPc v => exact if_neg h
  | run => exact if_neg h

/-- Every operation but `run()` leaves an IDLE core IDLE (70_reset_and_hazards.md R148 to R153). -/
theorem hostApply_keeps_idle {c : HostCommand} (hc : c ≠ .run) (h : s.runState = .idle) :
    (hostApply c s).state.runState = .idle := by
  cases c with
  | reset => rfl
  | loadWord a v =>
    rw [hostApply, hostLoadWord]
    split <;> exact h
  | setPc v =>
    rw [hostApply, hostSetPc, if_pos h]
    exact h
  | run => exact absurd rfl hc

/-- Settles O28: no step and no event without RUNNING; `hostApply_refused` and `hostApply_keeps_idle` for the host. -/
theorem onlyRunningSteps : Obligations.OnlyRunningSteps := by
  refine ⟨fun s h => ⟨stepEmits_of_not_running h, step_ne_next_of_not_running h⟩, fun c s hstop => ?_,
    fun c s hidle hleft => by_contra fun hc => hleft (hostApply_keeps_idle hc hidle)⟩
  have hnot : s.runState ≠ .idle := by rcases hstop with h | h <;> rw [h] <;> decide
  by_cases hc : c = .reset
  · subst hc
    exact .inr ⟨rfl, rfl⟩
  · exact .inl (congrArg HostReply.state (hostApply_refused hc hnot))

/-! ## Outcomes of a step -/

/-- At most one instruction is next. -/
theorem nextIs_iff_eq {i j : Instr} (h : s.nextIs i) : s.nextIs j ↔ i = j := by
  have ⟨_, _, hdecode⟩ := h
  exact ⟨fun ⟨_, _, hj⟩ => Decoded.instr.inj (hdecode.symm.trans hj), fun e => e ▸ h⟩

/-- The `run_state` in which an instruction executed from `s` ends (40_execution_cycle.md R97): FAULTED on the fatal
conditions of DIV_AC_REG, JUMP_TO_SUBROUT and RET_FRM_SUBROUT, HALTED after HALT. -/
def runStateAfter (s : State) : Instr → RunState
  | .divAcReg _ => if s.gr = 0#16 then .faulted else s.runState
  | .jumpToSubrout _ => if s.depth = Config.stackWords then .faulted else s.runState
  | .retFrmSubrout _ => if s.depth = 0 then .faulted else s.runState
  | .halt _ => .halted
  | _ => s.runState

/-- Whole frames leave a call that is not refused room for its frame, and a return that is not refused a frame
(10_state.md R31). -/
theorem exec_runState {i : Instr} (hle : s.depth ≤ Config.stackWords) (hframes : Config.frameWords ∣ s.depth)
    (hexec : exec i s = .next t) : t.runState = runStateAfter s i := by
  have hwords : Config.stackWords = 1024 := rfl
  have hfour : Config.frameWords = 4 := rfl
  rw [hfour] at hframes
  cases i
  case divAcReg x =>
    by_cases hgr : s.gr = 0#16
    · rw [exec_divAcReg_zero x hgr] at hexec
      cases hexec
      exact (if_pos hgr).symm
    · rw [exec_divAcReg_nonzero x hgr] at hexec
      cases hexec
      exact (if_neg hgr).symm
  case jumpToSubrout a =>
    by_cases hfull : s.depth = Config.stackWords
    · rw [exec_jumpToSubrout_full a hfull] at hexec
      cases hexec
      exact (if_pos hfull).symm
    · rw [exec_jumpToSubrout_room a (by omega)] at hexec
      cases hexec
      exact (if_neg hfull).symm
  case retFrmSubrout x =>
    by_cases hempty : s.depth = 0
    · rw [exec_retFrmSubrout_empty x hempty] at hexec
      cases hexec
      exact (if_pos hempty).symm
    · rw [exec_retFrmSubrout_frame x (by omega)] at hexec
      cases hexec
      exact (if_neg hempty).symm
  all_goals
    cases hexec
    rfl

/-- Only RET_FRM_SUBROUT and HALT emit (40_execution_cycle.md R97). -/
theorem emits_eq_nil {i : Instr} (hret : ∀ x, i ≠ .retFrmSubrout x) (hhalt : ∀ x, i ≠ .halt x) (s : State) :
    emits i s = [] := by
  cases i
  case retFrmSubrout x => exact absurd rfl (hret x)
  case halt x => exact absurd rfl (hhalt x)
  all_goals rfl

/-- A RUNNING core faults only on a fatal condition of the instruction (60_exceptions.md R130 to R132). -/
theorem runStateAfter_eq_faulted_iff (hrun : s.runState = .running) (i : Instr) :
    runStateAfter s i = .faulted ↔
      (∃ x, i = .divAcReg x ∧ s.gr = 0#16) ∨ (∃ a, i = .jumpToSubrout a ∧ s.depth = Config.stackWords) ∨
        ∃ x, i = .retFrmSubrout x ∧ s.depth = 0 := by
  cases i <;> simp [runStateAfter, hrun]

theorem runStateAfter_eq_halted_iff (hrun : s.runState = .running) (i : Instr) :
    runStateAfter s i = .halted ↔ ∃ x, i = .halt x := by
  cases i <;> simp [runStateAfter, hrun, ite_eq_iff]

theorem runStateAfter_ne_idle (hrun : s.runState = .running) (i : Instr) : runStateAfter s i ≠ .idle := by
  cases i <;> simp [runStateAfter, hrun, ite_eq_iff]

/-- Without an instruction at PC the step faults in its fetch or its decode, with no event. -/
theorem step_without_instr (hnone : ∀ i, ¬ s.nextIs i) (hstep : step s = .next t) :
    (Config.memWords ≤ s.pc.toNat ∨ s.pc.toNat < Config.memWords ∧
      ∃ o, decode (Cells.read s.mem s.pc.toNat) = .unrecognizedOpcode o) ∧
      t.runState = .faulted ∧ stepEmits s = [] := by
  obtain ⟨-, ⟨hpc, rfl⟩ | ⟨hpc, ⟨o, ho⟩, rfl⟩ | ⟨i, hi, -⟩⟩ := step_cases hstep
  · exact ⟨.inl hpc, rfl, stepEmits_out_of_range hpc⟩
  · exact ⟨.inr ⟨hpc, o, ho⟩, rfl, stepEmits_illegal hpc ho⟩
  · exact absurd hi (hnone i)

/-- Settles O29: where an instruction is next the step ends in its `runStateAfter` with its `emits`; where none is, the
step is one of the two faults before dispatch (`step_without_instr`). -/
theorem runningStepOutcomes : Obligations.RunningStepOutcomes := by
  intro s hrun hle hframes
  obtain ⟨t, hstep⟩ := step_next_of_running hrun
  refine ⟨t, hstep, ?_⟩
  by_cases hinstr : ∃ i, s.nextIs i
  · obtain ⟨i, hi⟩ := hinstr
    have ⟨_, hpc, hdecode⟩ := hi
    have hend : t.runState = runStateAfter s i :=
      exec_runState (s := fetch s) hle hframes ((step_of_nextIs hi).symm.trans hstep)
    have hfetch : ¬ 0x1000 ≤ s.pc.toNat := Nat.not_le.2 hpc
    have hlegal : ¬ (s.pc.toNat < 0x1000 ∧ ∃ o, decode (Cells.read s.mem s.pc.toNat) = .unrecognizedOpcode o) :=
      fun ⟨_, o, ho⟩ => nomatch hdecode.symm.trans ho
    rw [hend, stepEmits_of_nextIs hi, runStateAfter_eq_faulted_iff hrun, runStateAfter_eq_halted_iff hrun,
      or_iff_right hfetch, or_iff_right hlegal]
    simp only [nextIs_iff_eq hi]
    refine ⟨Iff.rfl, trivial, runStateAfter_ne_idle hrun i, ?_, ?_,
      fun h => emits_eq_nil (fun x => (h x).1) (fun x => (h x).2) _⟩
    · rintro ⟨x, rfl⟩
      rfl
    · rintro ⟨x, rfl⟩
      rfl
  · have hnone := not_exists.1 hinstr
    obtain ⟨hcause, hfault, hquiet⟩ := step_without_instr hnone hstep
    rw [hfault, hquiet, ← or_assoc]
    exact ⟨iff_of_true rfl (.inl hcause), iff_of_false nofun fun ⟨x, hx⟩ => hnone _ hx, nofun,
      fun ⟨x, hx⟩ => absurd hx (hnone _), fun ⟨x, hx⟩ => absurd hx (hnone _), fun _ => rfl⟩

/-! ## The count of calls -/

/-- A call counts exactly when it does not fault, from any stack (40_execution_cycle.md R96). -/
theorem exec_jumpToSubrout_callCount {a : Addr} (hrun : s.runState = .running)
    (hexec : exec (.jumpToSubrout a) s = .next t) :
    t.callCount = if t.runState = .faulted then s.callCount else s.callCount + 1#32 := by
  rw [exec, execJumpToSubrout] at hexec
  rcases jumpHandler_shape a s with ⟨sl, d, h⟩ | ⟨sl, d, h⟩
  all_goals
    rw [h] at hexec
    cases hexec
  · rfl
  · simp [State.countInstr, hrun]

theorem exec_callCount_of_not_jump {i : Instr} (hi : ∀ a, i ≠ .jumpToSubrout a) (hexec : exec i s = .next t) :
    t.callCount = s.callCount := by
  cases i
  case jumpToSubrout a => exact absurd rfl (hi a)
  case divAcReg x =>
    by_cases hgr : s.gr = 0#16
    · rw [exec_divAcReg_zero x hgr] at hexec
      cases hexec
      rfl
    · rw [exec_divAcReg_nonzero x hgr] at hexec
      cases hexec
      rfl
  case retFrmSubrout x =>
    rw [exec, execRetFrmSubrout] at hexec
    obtain ⟨gr, ac, ir, pc, d, h | h⟩ := retHandler_shape s
    all_goals
      rw [h] at hexec
      cases hexec
      rfl
  all_goals
    cases hexec
    rfl

/-- Settles O31: a step that faults before dispatch counts no call, a JUMP_TO_SUBROUT counts as
`exec_jumpToSubrout_callCount` says, and no other instruction counts. -/
theorem callCountRule : Obligations.CallCountRule := by
  intro s t hstep
  obtain ⟨hrun, ⟨-, rfl⟩ | ⟨-, -, rfl⟩ | ⟨i, hi, hexec⟩⟩ := step_cases hstep
  · exact ⟨fun h => absurd rfl h.2, fun _ => rfl⟩
  · exact ⟨fun h => absurd rfl h.2, fun _ => rfl⟩
  · simp only [nextIs_iff_eq hi]
    by_cases hcall : ∃ a, i = .jumpToSubrout a
    · obtain ⟨a, rfl⟩ := hcall
      have hcount := exec_jumpToSubrout_callCount (s := fetch s) hrun hexec
      refine ⟨fun ⟨_, hdone⟩ => ?_, fun h => ?_⟩
      · rw [hcount, if_neg hdone]
        exact BitVec.toNat_add s.callCount 1#32
      · have hfault : t.runState = .faulted := by_contra fun hdone => h ⟨⟨a, rfl⟩, hdone⟩
        rw [hcount, if_pos hfault, fetch_callCount]
    · exact ⟨fun h => absurd h.1 hcall,
        fun _ => exec_callCount_of_not_jump (s := fetch s) (not_exists.1 hcall) hexec⟩

end Sys2Proof.Machine
end

section
/-! Data transfer: what a register write or a store leaves unchanged, an instruction at the cell that PC names, and the
registers that no instruction but those of the register table writes (41_transfer.md R104 to R108; 10_state.md R26). -/

namespace Sys2Proof.Machine

open Laws.Encoding (decodeOpcode_encodeFields decodeAddress_encodeFields)

variable {s t u : State}

/-! ## Frames -/

/-- Counting the instruction completes a state whose status block is still that of before. -/
theorem completed_countInstr (hcount : SameCounts s t) (hrun : SameRun s t) : Completed s t.countInstr where
  counted := by
    rw [InstrCounted, State.countInstr_instrCount, hcount.instrCount]
    exact BitVec.toNat_add s.instrCount 1#32
  callCount := hcount.callCount
  run := ⟨hrun.runState, hrun.faultCause, hrun.faultPc, hrun.faultIr⟩

theorem readReg_writeReg_of_ne {q r : Reg} (h : q ≠ r) (v : Word) (s : State) :
    (s.writeReg r v).readReg q = s.readReg q := by
  cases r <;> cases q <;> simp at h ⊢

theorem readReg_countInstr (r : Reg) (s : State) : s.countInstr.readReg r = s.readReg r := rfl

/-- The frame of an instruction that writes one register and completes. -/
theorem countInstr_writeReg_frame (r : Reg) (v : Word) (s : State) :
    SameRegsExcept [r] s (s.writeReg r v).countInstr ∧ (s.writeReg r v).countInstr.mem = s.mem ∧
      SameStack s (s.writeReg r v).countInstr ∧ Completed s (s.writeReg r v).countInstr := by
  have hregs : SameRegsExcept [r] s (s.writeReg r v).countInstr := fun q hq =>
    (readReg_countInstr q _).trans (readReg_writeReg_of_ne (List.ne_of_not_mem_cons hq) v s)
  refine ⟨hregs, ?_⟩
  cases r <;> exact ⟨rfl, ⟨rfl, rfl⟩, completed_countInstr ⟨rfl, rfl⟩ ⟨rfl, rfl, rfl, rfl⟩⟩

/-! ## Memory -/

/-- An address that the canonical form does not list holds the reset value (10_state.md R49). -/
theorem Cells.read_of_not_listed : ∀ {m : Cells} {a : Nat}, a ∉ m.map Prod.fst → Cells.read m a = Config.resetWord
  | [], _, _ => rfl
  | (k, w) :: m, a, h => by
    rw [Cells.read_cons, if_neg (List.ne_of_not_mem_cons h)]
    exact Cells.read_of_not_listed (List.not_mem_of_not_mem_cons h)

/-- A load and a store to the same cell put back the Word that the cell holds (20_memory.md R60). -/
theorem mem_of_load_store {a : Addr} (hwf : Memory.wf s.mem = true) (hload : exec (.loadAcMem a) s = .next t)
    (hstore : exec (.storeAcMem a) t = .next u) : u.mem = s.mem := by
  cases hload
  cases hstore
  exact Cells.write_read hwf (addr_lt_memWords a)

/-! ## The cell that PC names -/

theorem pc_toNat_of_eq_setWidth {a : Addr} (hpc : s.pc = a.setWidth 16) : s.pc.toNat = a.toNat := by
  rw [hpc, BitVec.toNat_setWidth_of_le (by decide)]

theorem fetchWord_of_pc {a : Addr} (hpc : s.pc = a.setWidth 16) : fetchWord s = Cells.read s.mem a.toNat := by
  have hnat := pc_toNat_of_eq_setWidth hpc
  rw [fetchWord_eq (hnat ▸ addr_lt_memWords a), hnat]

theorem decode_encode (i : Instr) : decode (encode i) = .instr i :=
  (decode_eq_instr_iff _ i).2 ⟨decodeOpcode_encodeFields _ _, decodeAddress_encodeFields _ _⟩

/-- A RUNNING core at a cell that holds the Word of an instruction runs it next. -/
theorem nextIs_of_cell {i : Instr} {a : Addr} (hrun : s.runState = .running) (hpc : s.pc = a.setWidth 16)
    (hcell : Cells.read s.mem a.toNat = encode i) : s.nextIs i := by
  have hnat := pc_toNat_of_eq_setWidth hpc
  exact ⟨hrun, hnat ▸ addr_lt_memWords a, by rw [hnat, hcell, decode_encode]⟩

/-! ## The registers an instruction writes -/

/-- A register whose entry in the register table is no W is unchanged, from any stack and also on a fault
(10_state.md R26). -/
theorem exec_readReg_of_not_written {i : Instr} {r : Reg} (hwrite : regWrites i r = false)
    (hexec : exec i s = .next t) : t.readReg r = s.readReg r := by
  cases i
  case storeAcMem a =>
    cases hexec
    rfl
  case halt x =>
    cases hexec
    rfl
  case divAcReg x =>
    by_cases hgr : s.gr = 0#16
    · rw [exec_divAcReg_zero x hgr] at hexec
      cases hexec
      rfl
    · rw [exec_divAcReg_nonzero x hgr] at hexec
      cases hexec
      exact readReg_writeReg_of_ne (r := .ac) (ne_of_beq_false hwrite) _ s
  case jumpToSubrout a =>
    rw [exec, execJumpToSubrout] at hexec
    rcases jumpHandler_shape a s with ⟨sl, d, h⟩ | ⟨sl, d, h⟩
    all_goals
      rw [h] at hexec
      cases hexec
    · rfl
    · exact readReg_writeReg_of_ne (r := .pc) (ne_of_beq_false hwrite) _ s
  case retFrmSubrout x => exact nomatch hwrite
  case storeAcReg | loadRegOperand =>
    cases hexec
    exact readReg_writeReg_of_ne (r := .gr) (ne_of_beq_false hwrite) _ s
  all_goals
    cases hexec
    exact readReg_writeReg_of_ne (r := .ac) (ne_of_beq_false hwrite) _ s

/-- The W entries of GR in the register table (10_state.md R26). -/
theorem regWrites_gr {i : Instr} (h : regWrites i .gr = true) :
    (∃ x, i = .storeAcReg x) ∨ (∃ imm, i = .loadRegOperand imm) ∨ ∃ x, i = .retFrmSubrout x := by
  cases i
  case storeAcReg x => exact .inl ⟨x, rfl⟩
  case loadRegOperand imm => exact .inr (.inl ⟨imm, rfl⟩)
  case retFrmSubrout x => exact .inr (.inr ⟨x, rfl⟩)
  all_goals exact nomatch h

/-! ## LOAD_REG_OPERAND's immediate -/

theorem zext16_toNat (a : Addr) : (zext16 a).toNat = a.toNat := BitVec.toNat_setWidth_of_le (by decide)

/-- A zero-extended immediate passes the range check of an address: its bits 15:12 are zero. -/
theorem zext16_top (a : Addr) : (zext16 a).extractLsb' 12 4 = 0#4 :=
  (fetchOk_iff_top_zero _).1 ((fetchOk_iff _).2 (zext16_toNat a ▸ addr_lt_memWords a))

/-- An immediate fits 12 bits. -/
theorem zext16_le (a : Addr) : (zext16 a).toNat ≤ 0x0FFF :=
  Nat.le_of_lt_succ (zext16_toNat a ▸ addr_lt_memWords a)

/-! ## The statements -/

/-- Settles O7: the effect is `exec_loadAcMem`, its frame `countInstr_writeReg_frame`; at its own address the
instruction's word is the cell that it loads (`nextIs_of_cell`). -/
theorem loadAcMemLoadsCell : Obligations.LoadAcMemLoadsCell := by
  have hencoded : EncodedAs 0x1000#16 .loadAcMem := encodedAs_of_opcode rfl (fun _ => rfl) (fun _ => rfl)
  refine ⟨hencoded, fun a s => ?_, fun a s hrun hpc hcell => ?_⟩
  · obtain ⟨hregs, hmem, hstack, hdone⟩ := countInstr_writeReg_frame .ac (s.memRead a) s
    exact ⟨_, exec_loadAcMem s a, rfl, hregs, hmem, hstack, hdone, Cells.read_of_not_listed⟩
  · have hnext : s.nextIs (.loadAcMem a) := nextIs_of_cell hrun hpc (hcell.trans (hencoded.2 a).symm)
    exact ⟨_, (step_of_nextIs hnext).trans (exec_loadAcMem _ a), hcell⟩

/-- Settles O8: the effect is `exec_storeAcMem`, read back by `Cells.read_write_same` and `Cells.read_write_other`;
after the step `fetchWord_of_pc` fetches the stored cell. -/
theorem storeAcMemWritesCell : Obligations.StoreAcMemWritesCell := by
  refine ⟨encodedAs_of_opcode rfl (fun _ => rfl) (fun _ => rfl), fun a s hwf => ?_, fun a s hwf hnext => ?_,
    fun a s t u => mem_of_load_store⟩
  · have hregs : SameRegsExcept [] s (s.memWrite a s.ac).countInstr := fun _ _ => rfl
    exact ⟨_, exec_storeAcMem s a, Cells.read_write_same _ _ hwf, fun b hb => Cells.read_write_other _ _ hb, hregs,
      ⟨rfl, rfl⟩, completed_countInstr ⟨rfl, rfl⟩ ⟨rfl, rfl, rfl, rfl⟩⟩
  · have hcell : Cells.read (Cells.write s.mem a.toNat s.ac) a.toNat = s.ac := Cells.read_write_same _ _ hwf
    exact ⟨_, (step_of_nextIs hnext).trans (exec_storeAcMem _ a), hcell, rfl,
      fun hpc => (fetchWord_of_pc hpc).trans hcell⟩

/-- Settles O9, by `exec_loadAcReg` and the frame of a register write. -/
theorem loadAcRegCopiesGr : Obligations.LoadAcRegCopiesGr := by
  refine ⟨encodedAs_of_opcode rfl (fun _ => rfl) (fun _ => rfl), fun x s => ?_⟩
  exact ⟨_, exec_loadAcReg s x, rfl, countInstr_writeReg_frame .ac s.gr s⟩

/-- Settles O10: the effect is `exec_storeAcReg`; of the writers of GR (`regWrites_gr`), LOAD_REG_OPERAND leaves at
most 0x0FFF there. -/
theorem storeAcRegCopiesAc : Obligations.StoreAcRegCopiesAc := by
  refine ⟨encodedAs_of_opcode rfl (fun _ => rfl) (fun _ => rfl), fun x s => ?_, fun i s t hexec hnew hwide => ?_⟩
  · exact ⟨_, exec_storeAcReg s x, rfl, countInstr_writeReg_frame .gr s.ac s⟩
  · have hwrites : regWrites i .gr = true :=
      Bool.of_not_eq_false fun h => hnew (exec_readReg_of_not_written h hexec)
    rcases regWrites_gr hwrites with hstore | ⟨imm, rfl⟩ | hret
    · exact .inl hstore
    · cases hexec
      exact absurd hwide (Nat.not_lt.2 (zext16_le imm))
    · exact .inr hret

/-- Settles O11: the effect is `exec_loadRegOperand`, its value the facts about `zext16`; immediate 0 leaves the zero
divisor of `exec_divAcReg_zero`. -/
theorem loadRegOperandZeroExtends : Obligations.LoadRegOperandZeroExtends := by
  refine ⟨encodedAs_of_opcode rfl (fun _ => rfl) (fun _ => rfl), fun imm s => ?_, fun s t u x hexec hgr => ?_⟩
  · exact ⟨_, exec_loadRegOperand s imm, zext16_toNat imm, zext16_le imm, zext16_top imm,
      countInstr_writeReg_frame .gr (zext16 imm) s⟩
  · cases hexec
    exact ⟨_, exec_divAcReg_zero x hgr, rfl, rfl⟩

end Sys2Proof.Machine
end

section
/-! Addition: the sum mod 2^16, the add at the cell that PC names, and the doubling after LOAD_AC_REG
(42_arithmetic.md R109, R110, R114). -/

namespace Sys2Proof.Machine

/-! ## The sum -/

/-- The sum wraps mod 2^16 (42_arithmetic.md R114). -/
theorem addWords_toNat (a b : Word) : (addWords a b).toNat = (a.toNat + b.toNat) % 2 ^ 16 :=
  BitVec.toNat_ofNat _ 16

theorem addWords_eq_add (a b : Word) : addWords a b = a + b :=
  BitVec.eq_of_toNat_eq ((addWords_toNat a b).trans (BitVec.toNat_add a b).symm)

theorem addWords_self_toNat (a : Word) : (addWords a a).toNat = 2 * a.toNat % 2 ^ 16 := by
  rw [addWords_toNat, Nat.two_mul]

/-! ## The statements -/

/-- Settles O12: the effect is `exec_addAcMem`, its value `addWords_toNat`, its frame that of a register write; at its
own address the cell that the instruction adds is its own word (`nextIs_of_cell`). -/
theorem addAcMemAddsCell : Obligations.AddAcMemAddsCell := by
  have hencoded : EncodedAs 0x5000#16 .addAcMem := encodedAs_of_opcode rfl (fun _ => rfl) (fun _ => rfl)
  refine ⟨hencoded, fun a s => ?_, fun a s hrun hpc hcell => ?_⟩
  · exact ⟨_, exec_addAcMem s a, addWords_toNat _ _, countInstr_writeReg_frame .ac _ s⟩
  · have hnext : s.nextIs (.addAcMem a) := nextIs_of_cell hrun hpc (hcell.trans (hencoded.2 a).symm)
    have hsum : addWords s.ac (Cells.read s.mem a.toNat) = s.ac + (0x5000#16 ||| a.setWidth 16) := by
      rw [hcell, addWords_eq_add]
    exact ⟨_, (step_of_nextIs hnext).trans (exec_addAcMem _ a), hsum⟩

/-- Settles O13: the effect is `exec_addAcReg`, its value `addWords_toNat`, its frame that of a register write; after
LOAD_AC_REG both summands are GR (`addWords_self_toNat`). -/
theorem addAcRegAddsGr : Obligations.AddAcRegAddsGr := by
  refine ⟨encodedAs_of_opcode rfl (fun _ => rfl) (fun _ => rfl), fun x s => ?_, fun x y s t hload => ?_⟩
  · exact ⟨_, exec_addAcReg s x, addWords_toNat _ _, countInstr_writeReg_frame .ac _ s⟩
  · cases hload
    exact ⟨_, exec_addAcReg _ y, addWords_self_toNat s.gr⟩

end Sys2Proof.Machine
end

section
/-! Control transfer and halt: the frame that a call pushes, the return to it, what a raised condition leaves
unchanged, and HALT (43_control.md R120 to R124). -/

namespace Sys2Proof.Machine

variable {s t : State}

/-! ## Frames -/

/-- Whole frames below the capacity leave room for one frame more (10_state.md R31). -/
theorem room_of_whole_frames (hframes : Config.frameWords ∣ s.depth) (h : s.depth < Config.stackWords) :
    s.depth + Config.frameWords ≤ Config.stackWords := by
  obtain ⟨n, hn⟩ := hframes
  simp only [Config.frameWords, Config.stackWords] at *
  omega

/-- The stack of `t` is one frame deeper than that of `s`, and its top frame holds the four registers of `s`
(43_control.md R120). -/
structure FrameOnTop (s t : State) : Prop where
  depth : t.depth = s.depth + 4
  pc : Cells.read t.slot s.depth = s.pc
  ir : Cells.read t.slot (s.depth + 1) = s.ir
  ac : Cells.read t.slot (s.depth + 2) = s.ac
  gr : Cells.read t.slot (s.depth + 3) = s.gr

/-- A call with room puts the frame of its registers on top of the stack and leaves every other slot alone. -/
theorem call_pushes_frame {a : Addr} (hwf : Slots.wf s.slot = true)
    (hroom : s.depth + Config.frameWords ≤ Config.stackWords) (hexec : exec (.jumpToSubrout a) s = .next t) :
    FrameOnTop s t ∧
      ∀ k, (k < s.depth ∨ s.depth + 4 ≤ k) → Cells.read t.slot k = Cells.read s.slot k := by
  have hfour : Config.frameWords = 4 := rfl
  have hwf1 := Cells.wf_write s.pc hwf (show s.depth < _ by omega)
  have hwf2 := Cells.wf_write s.ir hwf1 (show s.depth + 1 < _ by omega)
  have hwf3 := Cells.wf_write s.ac hwf2 (show s.depth + 2 < _ by omega)
  rw [exec_jumpToSubrout_room a hroom] at hexec
  cases hexec
  refine ⟨⟨rfl, ?_, ?_, ?_, Cells.read_write_same _ _ hwf3⟩, fun k hk => ?_⟩
  · rw [Cells.read_write_other _ _ (by omega), Cells.read_write_other _ _ (by omega),
      Cells.read_write_other _ _ (by omega), Cells.read_write_same _ _ hwf]
  · rw [Cells.read_write_other _ _ (by omega), Cells.read_write_other _ _ (by omega),
      Cells.read_write_same _ _ hwf1]
  · rw [Cells.read_write_other _ _ (by omega), Cells.read_write_same _ _ hwf2]
  · rw [Cells.read_write_other _ _ (by omega), Cells.read_write_other _ _ (by omega),
      Cells.read_write_other _ _ (by omega), Cells.read_write_other _ _ (by omega)]

/-- A return to the frame of `s` restores the four registers and the occupancy of `s` (43_control.md R122, R126). -/
theorem return_restores_frame (x : Addr) (h : FrameOnTop s t) :
    ∃ u, exec (.retFrmSubrout x) t = .next u ∧ SameRegsExcept [] s u ∧ u.depth = s.depth ∧
      u.slot = t.slot ∧ u.mem = t.mem := by
  have hoccupied : Config.frameWords ≤ t.depth := h.depth ▸ Nat.le_add_left 4 s.depth
  refine ⟨_, exec_retFrmSubrout_frame x hoccupied, fun r _ => ?_, Nat.sub_eq_of_eq_add h.depth, rfl, rfl⟩
  rw [h.depth]
  cases r
  case ac => exact h.ac
  case ir => exact h.ir
  case pc => exact h.pc
  case gr => exact h.gr

/-! ## Fault entry -/

/-- Fault entry writes the record and `run_state` and nothing else (60_exceptions.md R135). -/
theorem faultEntry_frame (cause : FaultCause) (pc0 : Word) (s : State) :
    SameRegsExcept [] s (faultEntry cause pc0 s) ∧ (faultEntry cause pc0 s).mem = s.mem ∧
      SameStack s (faultEntry cause pc0 s) ∧ SameCounts s (faultEntry cause pc0 s) :=
  ⟨fun _ _ => rfl, rfl, ⟨rfl, rfl⟩, ⟨rfl, rfl⟩⟩

/-! ## The statements -/

/-- Settles O17: with room the effect is `exec_jumpToSubrout_room`, its stack `call_pushes_frame`; on a full stack it
is a fault entry (`exec_jumpToSubrout_full`). -/
theorem jumpToSubroutPushesFrame : Obligations.JumpToSubroutPushesFrame := by
  refine ⟨encodedAs_of_opcode rfl (fun _ => rfl) (fun _ => rfl), fun a s hwf hframes hlt => ?_, fun a s hfull => ?_⟩
  · have hroom := room_of_whole_frames hframes hlt
    have hexec := exec_jumpToSubrout_room a hroom
    obtain ⟨⟨hdepth, hpc, hir, hac, hgr⟩, hothers⟩ := call_pushes_frame hwf hroom hexec
    have hregs : ∀ r ∉ [Reg.pc], regWrites (.jumpToSubrout a) r = false := fun r hr =>
      beq_false_of_ne (List.ne_of_not_mem_cons hr)
    exact ⟨_, hexec, hpc, hir, hac, hgr, hothers, hdepth, zext16_toNat a, BitVec.toNat_add s.callCount 1#32,
      fun r hr => exec_readReg_of_not_written (hregs r hr) hexec, rfl, BitVec.toNat_add s.instrCount 1#32,
      ⟨rfl, rfl, rfl, rfl⟩⟩
  · exact ⟨_, exec_jumpToSubrout_full a hfull, faultedWith_faultEntry .stackOverflow _ s, faultEntry_frame _ _ s⟩

/-- Settles O18: with a frame the effect is `exec_retFrmSubrout_frame`, on an empty stack it is a fault entry
(`exec_retFrmSubrout_empty`); right after a call the top frame is the caller's, which `return_restores_frame`
restores. -/
theorem retFrmSubroutRestoresFrame : Obligations.RetFrmSubroutRestoresFrame := by
  refine ⟨encodedAs_of_opcode rfl (fun _ => rfl) (fun _ => rfl), fun _ _ => ⟨rfl, rfl⟩,
    fun x s hframes hpos => ?_, fun x s hempty => ?_, fun a x s t hwf hframes hlt hexec => ?_⟩
  · have hoccupied : Config.frameWords ≤ s.depth := Nat.le_of_dvd hpos hframes
    exact ⟨_, exec_retFrmSubrout_frame x hoccupied, rfl, rfl, rfl, rfl, rfl, rfl, rfl,
      ⟨BitVec.toNat_add s.instrCount 1#32, rfl, ⟨rfl, rfl, rfl, rfl⟩⟩⟩
  · exact ⟨_, exec_retFrmSubrout_empty x hempty, faultedWith_faultEntry .stackUnderflow _ s, faultEntry_frame _ _ s⟩
  · have hroom := room_of_whole_frames hframes hlt
    obtain ⟨hframe, -⟩ := call_pushes_frame hwf hroom hexec
    obtain ⟨u, hret, hregs, hdepth, -, hmem⟩ := return_restores_frame x hframe
    rw [exec_jumpToSubrout_room a hroom] at hexec
    cases hexec
    exact ⟨u, hret, hregs, hdepth, hmem⟩

/-- Settles O19: the effect is `exec_halt`, which changes `instr_count` and `run_state` only; HALTED has no step
(`step_halted`). -/
theorem haltStopsTheCore : Obligations.HaltStopsTheCore := by
  refine ⟨encodedAs_of_opcode rfl (fun _ => rfl) (fun _ => rfl), fun x s => ?_⟩
  have hexec := exec_halt s x
  exact ⟨_, hexec, rfl, rfl, rfl, fun _ _ => exec_readReg_of_not_written rfl hexec, rfl, ⟨rfl, rfl⟩,
    BitVec.toNat_add s.instrCount 1#32, rfl, rfl, rfl, rfl, step_halted rfl⟩

end Sys2Proof.Machine
end

section
/-! The fatal conditions that a handler raises, at the level of the step: division by zero and stack overflow
(60_exceptions.md R130, R131). -/

namespace Sys2Proof.Machine

variable {s : State}

/-- When the handler of the instruction at PC raises a condition before it writes anything, the step enters FAULTED
with only the fetch done (60_exceptions.md R135). -/
theorem step_raised_after_fetch {i : Instr} {cause : FaultCause} (hi : s.nextIs i)
    (hexec : exec i (fetch s) = .next (faultEntry cause (pcOfCurrent (fetch s)) (fetch s))) :
    ∃ t, step s = .next t ∧ FaultedWith cause.code s.pc t ∧ FetchedOnly s t := by
  have ⟨_, hpc, _⟩ := hi
  rw [pcOfCurrent_fetch] at hexec
  exact ⟨_, (step_of_nextIs hi).trans hexec, faultedWith_faultEntry cause s.pc _, fetchedOnly_faultEntry cause _ hpc⟩

/-- Settles O25: with GR = 0 the handler raises DivisionByZero (`exec_divAcReg_zero`), and DIV_AC_REG emits nothing. -/
theorem divisionByZeroFaults : Obligations.DivisionByZeroFaults := by
  intro x s hi hgr
  obtain ⟨t, hstep, hfault, hframe⟩ := step_raised_after_fetch hi (exec_divAcReg_zero (s := fetch s) x hgr)
  exact ⟨t, hstep, hfault, hframe, stepEmits_of_nextIs hi⟩

/-- Settles O26: on a full stack the handler raises StackOverflow (`exec_jumpToSubrout_full`); fewer frames leave room
for one frame more, and the call completes (`exec_jumpToSubrout_room`). -/
theorem stackOverflowFaults : Obligations.StackOverflowFaults := by
  refine ⟨fun a s hi hfull => ?_, fun a s n hi hdepth hn => ?_⟩
  · obtain ⟨t, hstep, hfault, hframe⟩ := step_raised_after_fetch hi (exec_jumpToSubrout_full (s := fetch s) a hfull)
    exact ⟨t, hstep, hfault, hframe, stepEmits_of_nextIs hi⟩
  · have ⟨hrun, _, _⟩ := hi
    have hlt : s.depth < Config.stackWords := by
      simp only [Config.stackWords]
      omega
    have hroom := room_of_whole_frames ⟨n, hdepth⟩ hlt
    refine ⟨_, (step_of_nextIs hi).trans (exec_jumpToSubrout_room (s := fetch s) a hroom), hrun, ?_⟩
    calc s.depth + 4 = 4 * n + 4 := by rw [hdepth]
      _ = 4 * (n + 1) := rfl

end Sys2Proof.Machine
end

section
/-! What an instruction can do, said once: the cases of `exec` over a stack of whole frames, and from any stack for the
instructions that leave it alone (40_execution_cycle.md R93 to R97). -/

namespace Sys2Proof.Machine

variable {s t : State} {i : Instr}

/-- The depths that a run reaches: whole frames within the capacity (10_state.md R30, R31). -/
structure WholeFrames (s : State) : Prop where
  depthFrames : Config.frameWords ∣ s.depth
  depthLe : s.depth ≤ Config.stackWords

theorem State.Inv.wholeFrames (h : s.Inv) : WholeFrames s := ⟨h.depthFrames, h.depthLe⟩

/-- A stack of whole frames is empty or holds a frame. -/
theorem WholeFrames.empty_or_frame (h : WholeFrames s) : s.depth = 0 ∨ Config.frameWords ≤ s.depth :=
  s.depth.eq_zero_or_pos.imp_right fun hpos => Nat.le_of_dvd hpos h.depthFrames

/-- A stack of whole frames is full or has room for a frame. -/
theorem WholeFrames.full_or_room (h : WholeFrames s) :
    s.depth = Config.stackWords ∨ s.depth + Config.frameWords ≤ Config.stackWords :=
  h.depthLe.eq_or_lt.imp_right (room_of_whole_frames h.depthFrames)

/-- The instructions that leave the stack alone: neither a call nor a return. -/
structure OffStack (i : Instr) : Prop where
  notCall : ∀ a, i ≠ .jumpToSubrout a
  notReturn : ∀ x, i ≠ .retFrmSubrout x

theorem call_or_return_or_offStack (i : Instr) :
    (∃ a, i = .jumpToSubrout a) ∨ (∃ x, i = .retFrmSubrout x) ∨ OffStack i := by
  cases i
  case jumpToSubrout a => exact .inl ⟨a, rfl⟩
  case retFrmSubrout x => exact .inr (.inl ⟨x, rfl⟩)
  all_goals exact .inr (.inr ⟨nofun, nofun⟩)

/-- What instruction `i` executed from `s` can leave. -/
inductive Effect (s : State) : Instr → State → Prop where
  /-- It completes, with new Words in AC and GR at most (41_transfer.md, 42_arithmetic.md). -/
  | registers {i : Instr} (ac gr : Word) : Effect s i ({ s with ac := ac, gr := gr } : State).countInstr
  /-- It completes a store (41_transfer.md R105). -/
  | store (a : Addr) : Effect s (.storeAcMem a) (s.memWrite a s.ac).countInstr
  /-- It raises a fatal condition of its handler with nothing changed (60_exceptions.md R130 to R132). -/
  | raised {i : Instr} {cause : FaultCause} (hcause : cause ≠ .noFault) (hfetch : cause ≠ .fetchOutOfRange) :
      Effect s i (faultEntry cause (pcOfCurrent s) s)
  /-- It completes a call (43_control.md R120). -/
  | call (a : Addr) (hroom : s.depth + Config.frameWords ≤ Config.stackWords) :
      Effect s (.jumpToSubrout a)
        { s with
          slot := Cells.write (Cells.write (Cells.write (Cells.write s.slot s.depth s.pc) (s.depth + 1) s.ir)
            (s.depth + 2) s.ac) (s.depth + 3) s.gr
          depth := s.depth + 4
          pc := zext16 a
          callCount := s.callCount + 1#32
          instrCount := s.instrCount + 1#32 }
  /-- It completes a return (43_control.md R122). -/
  | ret (x : Addr) (hframe : Config.frameWords ≤ s.depth) :
      Effect s (.retFrmSubrout x)
        { s with
          depth := s.depth - 4
          gr := Cells.read s.slot (s.depth - 1)
          ac := Cells.read s.slot (s.depth - 2)
          ir := Cells.read s.slot (s.depth - 3)
          pc := Cells.read s.slot (s.depth - 4)
          instrCount := s.instrCount + 1#32 }
  /-- It halts (43_control.md R124). -/
  | halt (x : Addr) : Effect s (.halt x) (s.countInstr.setRunState .halted)

/-- Off the stack the effect is one of these from every state. -/
theorem exec_effect_of_offStack (hi : OffStack i) (hexec : exec i s = .next t) : Effect s i t := by
  cases i
  case jumpToSubrout a => exact absurd rfl (hi.notCall a)
  case retFrmSubrout x => exact absurd rfl (hi.notReturn x)
  case divAcReg x =>
    by_cases hgr : s.gr = 0#16
    · rw [exec_divAcReg_zero x hgr] at hexec
      cases hexec
      exact .raised nofun nofun
    · rw [exec_divAcReg_nonzero x hgr] at hexec
      cases hexec
      exact .registers _ _
  case storeAcMem a =>
    cases hexec
    exact .store a
  case halt x =>
    cases hexec
    exact .halt x
  all_goals
    cases hexec
    exact .registers _ _

/-- Over whole frames every instruction's effect is one of these. -/
theorem exec_effect (hframes : WholeFrames s) (hexec : exec i s = .next t) : Effect s i t := by
  rcases call_or_return_or_offStack i with ⟨a, rfl⟩ | ⟨x, rfl⟩ | hi
  · rcases hframes.full_or_room with hfull | hroom
    · rw [exec_jumpToSubrout_full a hfull] at hexec
      cases hexec
      exact .raised nofun nofun
    · rw [exec_jumpToSubrout_room a hroom] at hexec
      cases hexec
      exact .call a hroom
  · rcases hframes.empty_or_frame with hempty | hframe
    · rw [exec_retFrmSubrout_empty x hempty] at hexec
      cases hexec
      exact .raised nofun nofun
    · rw [exec_retFrmSubrout_frame x hframe] at hexec
      cases hexec
      exact .ret x hframe
  · exact exec_effect_of_offStack hi hexec

end Sys2Proof.Machine
end

section
/-! The invariant: it holds at reset, and every step and every operation of the host keeps it (10_state.md R27, R30,
R31; 43_control.md R127; 60_exceptions.md R135). -/

namespace Sys2Proof.Machine

variable {s t : State}

/-- On the same stack the invariant needs only the memory's form and the fault record. -/
theorem State.Inv.of_sameStack (h : s.Inv) (hstack : SameStack s t) (hmem : Memory.wf t.mem = true)
    (hfault : t.faultCause = .noFault ↔ t.runState ≠ .faulted) : t.Inv where
  memWf := hmem
  slotsWf := hstack.slot ▸ h.slotsWf
  depthLe := hstack.depth ▸ h.depthLe
  depthFrames := hstack.depth ▸ h.depthFrames
  returnAddress k hk := by
    rw [hstack.slot]
    exact h.returnAddress k (hstack.depth ▸ hk)
  savedCall k hk := by
    rw [hstack.slot]
    exact h.savedCall k (hstack.depth ▸ hk)
  faultRecorded := hfault

theorem State.Inv.noFault (h : s.Inv) (hrun : s.runState = .running) : s.faultCause = .noFault :=
  h.faultRecorded.2 (by rw [hrun]; nofun)

/-- Fault entry with a cause keeps the invariant (60_exceptions.md R135). -/
theorem State.Inv.faultEntry (h : s.Inv) {cause : FaultCause} (hcause : cause ≠ .noFault) (pc0 : Word) :
    (Machine.faultEntry cause pc0 s).Inv :=
  h.of_sameStack ⟨rfl, rfl⟩ h.memWf (iff_of_false hcause (· rfl))

/-- The fetch touches IR and PC only. -/
theorem State.Inv.fetch (h : s.Inv) : (Machine.fetch s).Inv :=
  h.of_sameStack ⟨rfl, rfl⟩ h.memWf h.faultRecorded

/-- The four pushes of a call keep the slots' form. -/
theorem call_slots_wf {slot : Cells} {d : Nat} (hwf : Slots.wf slot = true)
    (hroom : d + Config.frameWords ≤ Config.stackWords) (pc ir ac gr : Word) :
    Slots.wf (Cells.write (Cells.write (Cells.write (Cells.write slot d pc) (d + 1) ir) (d + 2) ac) (d + 3) gr) =
      true := by
  have hfour : Config.frameWords = 4 := rfl
  exact Cells.wf_write gr (Cells.wf_write ac (Cells.wf_write ir (Cells.wf_write pc hwf (by omega)) (by omega))
    (by omega)) (by omega)

/-- With one frame more, a live frame is one of before, both its first slots occupied then, or the new one. -/
theorem live_frame_cases {d k : Nat} (hd : Config.frameWords ∣ d) (hk : Config.frameWords * k < d + 4) :
    (Config.frameWords * k < d ∧ Config.frameWords * k + 1 < d) ∨ Config.frameWords * k = d := by
  obtain ⟨n, rfl⟩ := hd
  simp only [Config.frameWords] at *
  omega

/-- A call whose fetch left a PC in range and its own Word in IR adds one sound frame to the caller's (43_control.md
R120, R127). -/
theorem State.Inv.call {a : Addr} (h : s.Inv) (hroom : s.depth + Config.frameWords ≤ Config.stackWords)
    (hpc : 1 ≤ s.pc.toNat ∧ s.pc.toNat ≤ Config.memWords) (hir : decodeOpcode s.ir = 0xB#4)
    (hexec : exec (.jumpToSubrout a) s = .next t) : t.Inv := by
  obtain ⟨hframe, hothers⟩ := call_pushes_frame h.slotsWf hroom hexec
  have hslots := call_slots_wf h.slotsWf hroom s.pc s.ir s.ac s.gr
  rw [exec_jumpToSubrout_room a hroom] at hexec
  cases hexec
  refine ⟨h.memWf, hslots, hroom, Nat.dvd_add_self_right.2 h.depthFrames, fun k hk => ?_, fun k hk => ?_,
    h.faultRecorded⟩ <;>
    rcases live_frame_cases h.depthFrames hk with ⟨hold, hsaved⟩ | hnew
  · rw [hothers _ (.inl hold)]
    exact h.returnAddress k hold
  · rw [hnew, hframe.pc]
    exact hpc
  · rw [hothers _ (.inl hsaved)]
    exact h.savedCall k hold
  · rw [hnew, hframe.ir]
    exact hir

/-- A return leaves the frames below the top one. -/
theorem State.Inv.ret {x : Addr} (h : s.Inv) (hframe : Config.frameWords ≤ s.depth)
    (hexec : exec (.retFrmSubrout x) s = .next t) : t.Inv := by
  rw [exec_retFrmSubrout_frame x hframe] at hexec
  cases hexec
  exact ⟨h.memWf, h.slotsWf, (Nat.sub_le ..).trans h.depthLe, Nat.dvd_sub h.depthFrames (Nat.dvd_refl 4),
    fun k hk => h.returnAddress k (Nat.lt_of_lt_of_le hk (Nat.sub_le ..)),
    fun k hk => h.savedCall k (Nat.lt_of_lt_of_le hk (Nat.sub_le ..)), h.faultRecorded⟩

/-- The PC after a fetch in range is one more, without wrapping (40_execution_cycle.md R90). -/
theorem fetch_pc_toNat (hpc : s.pc.toNat < Config.memWords) : (fetch s).pc.toNat = s.pc.toNat + 1 := by
  have hadd : (fetch s).pc.toNat = (s.pc.toNat + 1) % 2 ^ 16 := BitVec.toNat_add s.pc 1#16
  simp only [Config.memWords] at hpc
  omega

/-- The fetched Word of the next instruction has its opcode. -/
theorem decodeOpcode_fetch {i : Instr} (hi : s.nextIs i) : decodeOpcode (fetch s).ir = i.opcode := by
  obtain ⟨-, hpc, hdecode⟩ := hi
  rw [fetch_ir, fetchWord_eq hpc]
  exact ((decode_eq_instr_iff _ _).1 hdecode).1

/-- Settles O43: a step faults before dispatch or has one of the effects of `exec_effect` after its fetch; only a call
and a return change the stack (`State.Inv.call`, `State.Inv.ret`). -/
theorem stepKeepsInvariant : Obligations.StepKeepsInvariant := by
  intro s t hinv hstep
  obtain ⟨hrun, ⟨-, rfl⟩ | ⟨-, -, rfl⟩ | ⟨i, hi, hexec⟩⟩ := step_cases hstep
  · exact hinv.faultEntry (cause := .fetchOutOfRange) nofun s.pc
  · exact hinv.fetch.faultEntry (cause := .unrecognizedOpcode) nofun s.pc
  · have ⟨_, hpc, _⟩ := hi
    have hfetch := hinv.fetch
    cases exec_effect hfetch.wholeFrames hexec with
    | registers ac gr => exact hfetch.of_sameStack ⟨rfl, rfl⟩ hfetch.memWf hfetch.faultRecorded
    | store a => exact hfetch.of_sameStack ⟨rfl, rfl⟩ (State.memWrite_wf a _ hfetch.memWf) hfetch.faultRecorded
    | raised hcause => exact hfetch.faultEntry hcause _
    | call a hroom =>
      have hnext := fetch_pc_toNat hpc
      exact hfetch.call hroom (by omega) (decodeOpcode_fetch hi) hexec
    | ret x hframe => exact hfetch.ret hframe hexec
    | halt x =>
      exact hfetch.of_sameStack ⟨rfl, rfl⟩ hfetch.memWf (iff_of_true (hinv.noFault hrun) nofun)

/-- Settles O42: no cell and no slot is listed, no slot is occupied. -/
theorem resetMeetsInvariant : Obligations.ResetMeetsInvariant where
  memWf := State.reset_mem_wf
  slotsWf := State.reset_slot_wf
  depthLe := Nat.zero_le _
  depthFrames := Nat.dvd_zero _
  returnAddress _ hk := absurd hk (Nat.not_lt_zero _)
  savedCall _ hk := absurd hk (Nat.not_lt_zero _)
  faultRecorded := iff_of_true rfl nofun

/-- Settles O44: `reset` gives `resetMeetsInvariant`; the other operations leave the stack and, in IDLE, where no fault
is recorded, change memory, PC or `run_state` only. -/
theorem hostKeepsInvariant : Obligations.HostKeepsInvariant := by
  intro c s hinv
  cases c with
  | reset => exact resetMeetsInvariant
  | loadWord a v =>
    rw [hostApply, hostLoadWord]
    split
    · exact hinv.of_sameStack ⟨rfl, rfl⟩ (State.memWrite_wf _ _ hinv.memWf) hinv.faultRecorded
    · exact hinv
  | setPc v =>
    rw [hostApply, hostSetPc]
    split
    · exact hinv.of_sameStack ⟨rfl, rfl⟩ hinv.memWf hinv.faultRecorded
    · exact hinv
  | run =>
    rw [hostApply, hostRun]
    split
    case isTrue hidle =>
      have hnone : s.faultCause = .noFault := hinv.faultRecorded.2 (by rw [hidle]; nofun)
      exact hinv.of_sameStack ⟨rfl, rfl⟩ hinv.memWf (iff_of_true hnone nofun)
    case isFalse => exact hinv

end Sys2Proof.Machine
end

section
/-! Every run ends (70_reset_and_hazards.md R161, R162, R164): a number of the state that every step lowers while the
core stays RUNNING; and how runs compose (R165). -/

namespace Sys2Proof.Machine

variable {s t : State}

/-! ## What is left of a run -/

/-- The steps left, read as a number in base 4097 with one digit per stack level, the outermost first: how far the
return address of each live frame, and then PC, stands below 0x1000. The base is R164's bound for a level. -/
def levelsLeft (slot : Cells) : Nat → Word → Nat
  | 0, pc => Config.memWords - pc.toNat
  | n + 1, pc =>
    4097 * levelsLeft slot n (Cells.read slot (Config.frameWords * n)) + (Config.memWords - pc.toNat)

theorem levelsLeft_lt (slot : Cells) : ∀ (n : Nat) (pc : Word), levelsLeft slot n pc < 4097 ^ (n + 1)
  | 0, pc => Nat.lt_succ_of_le (Nat.sub_le ..)
  | n + 1, pc => by
    have hcallers := levelsLeft_lt slot n (Cells.read slot (Config.frameWords * n))
    have hdigit : Config.memWords - pc.toNat ≤ 4096 := Nat.sub_le ..
    rw [levelsLeft, Nat.pow_succ]
    omega

/-- Only the live frames' return addresses count. -/
theorem levelsLeft_congr {slot slot' : Cells} : ∀ {n : Nat} (pc : Word),
    (∀ k, k < Config.frameWords * n → Cells.read slot' k = Cells.read slot k) →
      levelsLeft slot' n pc = levelsLeft slot n pc
  | 0, _, _ => rfl
  | n + 1, pc, h => by
    have hlt : Config.frameWords * n < Config.frameWords * (n + 1) :=
      Nat.mul_lt_mul_of_pos_left n.lt_succ_self (by decide)
    rw [levelsLeft, levelsLeft, h _ hlt, levelsLeft_congr _ fun k hk => h k (hk.trans hlt)]

/-- One instruction further in the same level. -/
theorem levelsLeft_succ (slot : Cells) (n : Nat) {pc pc' : Word} (hpc : pc.toNat < Config.memWords)
    (hnext : pc'.toNat = pc.toNat + 1) : levelsLeft slot n pc' + 1 = levelsLeft slot n pc := by
  cases n with
  | zero => simp only [levelsLeft]; omega
  | succ n => simp only [levelsLeft]; omega

/-- `levelsLeft` of a state, its digits for the levels above the stack's top all zero: `MAX_NESTING` + 1 digits. -/
def stepsLeft (s : State) : Nat :=
  levelsLeft s.slot (s.depth / Config.frameWords) s.pc * 4097 ^ (Config.maxNesting - s.depth / Config.frameWords)

theorem stepsLeft_of_depth {n : Nat} (h : s.depth = Config.frameWords * n) :
    stepsLeft s = levelsLeft s.slot n s.pc * 4097 ^ (Config.maxNesting - n) := by
  rw [stepsLeft, h, Nat.mul_div_cancel_left n (by decide)]

/-- A step that advances PC on the same stack lowers `stepsLeft`. -/
theorem stepsLeft_lt_of_advance (hstack : SameStack s t) (hpc : s.pc.toNat < Config.memWords)
    (hnext : t.pc.toNat = s.pc.toNat + 1) : stepsLeft t < stepsLeft s := by
  have hone := levelsLeft_succ s.slot (s.depth / Config.frameWords) hpc hnext
  rw [stepsLeft, stepsLeft, hstack.slot, hstack.depth]
  exact Nat.mul_lt_mul_of_pos_right (by omega) (Nat.pow_pos (by decide))

/-- One level deeper, one digit fewer stands below. -/
theorem pow_levelsAbove {n : Nat} (h : Config.frameWords * n + Config.frameWords ≤ Config.stackWords) :
    4097 ^ (Config.maxNesting - n) = 4097 * 4097 ^ (Config.maxNesting - (n + 1)) := by
  have hlevels : Config.maxNesting - n = Config.maxNesting - (n + 1) + 1 := by
    simp only [Config.maxNesting, Config.stackWords, Config.frameWords] at *
    omega
  rw [hlevels, Nat.pow_succ']

/-- A call lowers `stepsLeft`: the caller's level has one step less, whatever the new level takes (R164). -/
theorem stepsLeft_lt_of_call (hframes : Config.frameWords ∣ s.depth)
    (hroom : s.depth + Config.frameWords ≤ Config.stackWords) (hpc : s.pc.toNat < Config.memWords)
    (hdepth : t.depth = s.depth + Config.frameWords)
    (hreturn : (Cells.read t.slot s.depth).toNat = s.pc.toNat + 1)
    (hothers : ∀ k, k < s.depth → Cells.read t.slot k = Cells.read s.slot k) : stepsLeft t < stepsLeft s := by
  obtain ⟨n, hn⟩ := hframes
  have hone := levelsLeft_succ s.slot n hpc hreturn
  have hcallers : levelsLeft t.slot n (Cells.read t.slot s.depth) = levelsLeft s.slot n (Cells.read t.slot s.depth) :=
    levelsLeft_congr _ fun k hk => hothers k (hn ▸ hk)
  have hdigit : Config.memWords - t.pc.toNat ≤ 4096 := Nat.sub_le ..
  rw [stepsLeft_of_depth (s := t) (n := n + 1) (hdepth.trans (by rw [hn, Nat.mul_succ])), stepsLeft_of_depth hn,
    levelsLeft, ← hn, hcallers, pow_levelsAbove (n := n) (hn ▸ hroom), ← Nat.mul_assoc]
  exact Nat.mul_lt_mul_of_pos_right (by omega) (Nat.pow_pos (by decide))

/-- A return lowers `stepsLeft`: the level it leaves had a step left. -/
theorem stepsLeft_lt_of_ret (hframes : Config.frameWords ∣ t.depth) (hdepth : s.depth = t.depth + Config.frameWords)
    (hle : s.depth ≤ Config.stackWords) (hpc : s.pc.toNat < Config.memWords) (hslot : t.slot = s.slot)
    (hreturn : t.pc = Cells.read s.slot t.depth) : stepsLeft t < stepsLeft s := by
  obtain ⟨n, hn⟩ := hframes
  rw [stepsLeft_of_depth hn, stepsLeft_of_depth (s := s) (n := n + 1) (hdepth.trans (by rw [hn, Nat.mul_succ])),
    levelsLeft, ← hn, ← hreturn, hslot, pow_levelsAbove (n := n) (hn ▸ hdepth ▸ hle), ← Nat.mul_assoc]
  exact Nat.mul_lt_mul_of_pos_right (by omega) (Nat.pow_pos (by decide))

/-- Every step after which the core is still RUNNING lowers `stepsLeft`. -/
theorem stepsLeft_lt_of_step (hinv : s.Inv) (hstep : step s = .next t) (hrun : t.runState = .running) :
    stepsLeft t < stepsLeft s := by
  obtain ⟨-, ⟨-, rfl⟩ | ⟨-, -, rfl⟩ | ⟨i, ⟨-, hpc, -⟩, hexec⟩⟩ := step_cases hstep
  · exact nomatch hrun
  · exact nomatch hrun
  have hnext := fetch_pc_toNat hpc
  cases exec_effect hinv.fetch.wholeFrames hexec with
  | registers ac gr => exact stepsLeft_lt_of_advance ⟨rfl, rfl⟩ hpc hnext
  | store a => exact stepsLeft_lt_of_advance ⟨rfl, rfl⟩ hpc hnext
  | raised => exact nomatch hrun
  | call a hroom =>
    obtain ⟨⟨hdepth, hreturn, -⟩, hothers⟩ := call_pushes_frame hinv.fetch.slotsWf hroom hexec
    exact stepsLeft_lt_of_call hinv.depthFrames hroom hpc hdepth (hnext ▸ congrArg BitVec.toNat hreturn)
      fun k hk => hothers k (.inl hk)
  | ret x hframe =>
    exact stepsLeft_lt_of_ret (Nat.dvd_sub hinv.depthFrames (Nat.dvd_refl 4)) (Nat.sub_add_cancel hframe).symm
      hinv.depthLe hpc rfl rfl
  | halt x => exact nomatch hrun

theorem stepsLeft_lt_bound (hle : s.depth ≤ Config.stackWords) : stepsLeft s < 4097 ^ (Config.maxNesting + 1) := by
  have hdepth : s.depth / Config.frameWords ≤ Config.maxNesting := Nat.div_le_div_right hle
  calc stepsLeft s
      < 4097 ^ (s.depth / Config.frameWords + 1) * 4097 ^ (Config.maxNesting - s.depth / Config.frameWords) :=
        Nat.mul_lt_mul_of_pos_right (levelsLeft_lt ..) (Nat.pow_pos (by decide))
    _ = 4097 ^ (Config.maxNesting + 1) := by
        rw [← Nat.pow_add, Nat.add_right_comm, Nat.add_sub_cancel' hdepth]

/-! ## Runs -/

/-- A step that leaves RUNNING ends the run: no step enters IDLE (40_execution_cycle.md R97). -/
theorem stopped_of_step (hinv : s.Inv) (hstep : step s = .next t) (hstop : t.runState ≠ .running) :
    stopped t = true := by
  obtain ⟨hrun, -⟩ := step_cases hstep
  obtain ⟨u, hu, -, -, hidle, -⟩ := runningStepOutcomes s hrun hinv.depthLe hinv.depthFrames
  obtain rfl : u = t := Host.Outcome.next.inj (hu.symm.trans hstep)
  cases h : u.runState with
  | idle => exact absurd h hidle
  | running => exact absurd h hstop
  | halted => simp [stopped, h]
  | faulted => simp [stopped, h]

/-- A run ends one step after `stepsLeft` is used up, at the latest. -/
theorem run_ends_within : ∀ (m : Nat) {s : State}, s.Inv → s.runState = .running → stepsLeft s < m →
    ∃ n, n ≤ m ∧ stopped (runFor n s).1 = true
  | m + 1, s, hinv, hrun, hm => by
    obtain ⟨t, hstep⟩ := step_next_of_running hrun
    by_cases hgoes : t.runState = .running
    · have hless := stepsLeft_lt_of_step hinv hstep hgoes
      obtain ⟨n, hn, hend⟩ := run_ends_within m (stepKeepsInvariant s t hinv hstep) hgoes (by omega)
      exact ⟨n + 1, Nat.succ_le_succ hn, by rwa [runFor_next n hstep]⟩
    · exact ⟨1, Nat.succ_le_succ m.zero_le, by
        rw [runFor_next 0 hstep]
        exact stopped_of_step hinv hstep hgoes⟩

/-- Settles O45: `stepsLeft` is below the bound (`stepsLeft_lt_bound`) and each step that goes on lowers it
(`stepsLeft_lt_of_step`). -/
theorem everyRunEnds : Obligations.EveryRunEnds := fun _ hinv hrun =>
  run_ends_within _ hinv hrun (stepsLeft_lt_bound hinv.depthLe)

theorem runFor_not_running (n : Nat) (h : s.runState ≠ .running) : runFor n s = (s, []) := by
  cases n with
  | zero => rfl
  | succ n =>
    cases hs : s.runState with
    | running => exact absurd hs h
    | idle => rw [runFor, step_idle hs]
    | halted => rw [runFor, step_halted hs]
    | faulted => rw [runFor, step_faulted hs]

/-- Settles O46: without RUNNING there is no step (`runFor_not_running`); a run composes by induction on its first
part. -/
theorem runHasOneEnd : Obligations.RunHasOneEnd := by
  refine ⟨fun n s h => runFor_not_running n h, fun m n s => ?_⟩
  induction m generalizing s with
  | zero => rw [Nat.zero_add, runFor_zero]; rfl
  | succ m ih =>
    by_cases hrun : s.runState = .running
    · obtain ⟨t, hstep⟩ := step_next_of_running hrun
      rw [Nat.add_right_comm, runFor_next _ hstep, runFor_next _ hstep, ih t, List.append_assoc]
    · rw [runFor_not_running _ hrun, runFor_not_running _ hrun, runFor_not_running _ hrun]
      rfl

end Sys2Proof.Machine
end

section
/-! The encoding of whole instructions, and the Words that the assembler places (30_encoding.md R74, R82, R84, R86). -/

namespace Sys2Proof.Machine

open Laws.Encoding (decodeOpcode_encodeFields decodeAddress_encodeFields wellFormed_of_operand)

/-- Settles O2: the field fits by its type, and `decode_encode`. -/
theorem decodeInvertsEncode : Obligations.DecodeInvertsEncode := fun i =>
  ⟨wellFormed_of_operand i, decode_encode i⟩

/-- Settles O3: a decoded instruction has the Word's two fields (`decode_eq_instr_iff`), which are the whole Word
(`encodeFields_decode`). -/
theorem encodeInvertsDecode : Obligations.EncodeInvertsDecode := by
  intro w i hdecode
  obtain ⟨hopcode, hfield⟩ := (decode_eq_instr_iff w i).1 hdecode
  rw [encode, ← hopcode, ← hfield, encodeFields_decode]

/-- Settles O1, by evaluation of the twelve Words. -/
theorem specVectorsDecode : Obligations.SpecVectorsDecode := by
  unfold Obligations.SpecVectorsDecode
  decide

/-- The two fields side by side, as a sum (30_encoding.md R74). -/
theorem encodeFields_toNat_eq_add (o : Opcode) (a : Addr) : (encodeFields o a).toNat = o.toNat * 4096 + a.toNat := by
  rw [encodeFields_toNat, ← Nat.shiftLeft_add_eq_or_of_lt a.isLt, Nat.shiftLeft_eq]

/-- A legal opcode over any field decodes to the instruction with that opcode and that field (30_encoding.md R82). -/
theorem decode_encodeFields_of_valid {o : Opcode} (hvalid : validOpcode o = true) (a : Addr) :
    ∃ i : Instr, decode (encodeFields o a) = .instr i ∧ i.opcode = o ∧ i.operand = a := by
  rw [decode, decodeOpcode_encodeFields, decodeAddress_encodeFields]
  rcases decodeFields_cases o a with ⟨-, hinstr⟩ | ⟨hinvalid, -⟩
  · exact hinstr
  · exact nomatch hvalid.symm.trans hinvalid

theorem validOpcode_of_takesOperand : ∀ o : Opcode, takesOperand o = true → validOpcode o = true := by decide

theorem validOpcode_of_mnemonic : ∀ p ∈ asmMnemonics, validOpcode p.2 = true := by decide

theorem asmOpWord_out_of_range {o : Opcode} {n : Nat} (ho : takesOperand o = true) (hn : 0xFFF < n) :
    asmOpWord [] o (some (.number n)) = .error .outOfRange := by
  have hrange : addressInRange n = false := decide_eq_false (Nat.not_lt.2 hn)
  simp [asmOpWord, asmResolve, ho, hrange]

theorem asmOpWord_in_range {o : Opcode} {n : Nat} (ho : takesOperand o = true) (hn : n ≤ 0xFFF) :
    asmOpWord [] o (some (.number n)) = .ok (encodeFields o (BitVec.ofNat 12 n)) := by
  have hrange : addressInRange n = true := decide_eq_true (Nat.lt_succ_of_le hn)
  simp [asmOpWord, asmResolve, ho, hrange]

/-- Settles O52: the Word is `asmOpWord_in_range` or `asmOpWord_bare`, its value `encodeFields_toNat_eq_add`, and every
opcode of the table is legal (`decode_encodeFields_of_valid`). -/
theorem assemblerEncodesOperands : Obligations.AssemblerEncodesOperands := by
  refine ⟨fun o n => asmOpWord_out_of_range, fun o n ho hn => ?_, fun p hp hbare => ?_⟩
  · obtain ⟨i, hdecode, hopcode, hfield⟩ :=
      decode_encodeFields_of_valid (validOpcode_of_takesOperand o ho) (BitVec.ofNat 12 n)
    have hfits : (BitVec.ofNat 12 n).toNat = n := by
      rw [BitVec.toNat_ofNat, Nat.mod_eq_of_lt (by omega)]
    exact ⟨_, i, asmOpWord_in_range ho hn, by rw [encodeFields_toNat_eq_add, hfits], hdecode, hopcode,
      by rw [hfield, hfits]⟩
  · obtain ⟨i, hdecode, hopcode, -⟩ := decode_encodeFields_of_valid (validOpcode_of_mnemonic p hp) 0#12
    exact ⟨_, i, asmOpWord_bare [] hbare, by simp [encodeFields_toNat_eq_add], hdecode, hopcode⟩

end Sys2Proof.Machine
end

section
/-! Multiplication, subtraction and division (42_arithmetic.md R111 to R117). -/

namespace Sys2Proof.Machine

/-! ## The results -/

/-- The product keeps its low 16 bits (42_arithmetic.md R116). -/
theorem multWords_toNat (a b : Word) : (multWords a b).toNat = (a.toNat * b.toNat) % 2 ^ 16 :=
  BitVec.toNat_ofNat _ 16

/-- The difference wraps mod 2^16 (42_arithmetic.md R114). -/
theorem subtWords_toNat (a b : Word) :
    ((subtWords a b).toNat : Int) = ((a.toNat : Int) - (b.toNat : Int)) % 2 ^ 16 := by
  rw [subtWords, BitVec.toNat_ofInt]
  exact Int.toNat_of_nonneg (Int.emod_nonneg _ (by decide))

/-- The quotient fits a Word: it is at most the dividend (42_arithmetic.md R117). -/
theorem divWords_toNat (a b : Word) : (divWords a b).toNat = a.toNat / b.toNat :=
  Nat.mod_eq_of_lt ((Nat.div_le_self ..).trans_lt a.isLt)

/-- The quotient is rounded down (42_arithmetic.md R117). -/
theorem divWords_floor (a : Word) {b : Word} (hb : b ≠ 0#16) :
    (divWords a b).toNat * b.toNat ≤ a.toNat ∧ a.toNat < ((divWords a b).toNat + 1) * b.toNat := by
  have hpos : 0 < b.toNat := Nat.pos_of_ne_zero fun h => hb (BitVec.eq_of_toNat_eq h)
  rw [divWords_toNat]
  exact ⟨Nat.div_mul_le_self .., (Nat.div_lt_iff_lt_mul hpos).1 (Nat.lt_succ_self _)⟩

/-! ## The statements -/

/-- Settles O14: the effect is `exec_multAcReg`, its value `multWords_toNat`, its frame that of a register write. -/
theorem multAcRegKeepsLowHalf : Obligations.MultAcRegKeepsLowHalf := by
  refine ⟨encodedAs_of_opcode rfl (fun _ => rfl) (fun _ => rfl), fun x s => ?_⟩
  exact ⟨_, exec_multAcReg s x, multWords_toNat _ _, countInstr_writeReg_frame .ac _ s⟩

/-- Settles O15: the effect is `exec_subtAcReg`, its value `subtWords_toNat`, its frame that of a register write. -/
theorem subtAcRegWraps : Obligations.SubtAcRegWraps := by
  refine ⟨encodedAs_of_opcode rfl (fun _ => rfl) (fun _ => rfl), fun x s => ?_⟩
  exact ⟨_, exec_subtAcReg s x, subtWords_toNat _ _, countInstr_writeReg_frame .ac _ s⟩

/-- Settles O16: the effect is `exec_divAcReg_nonzero`, its value `divWords_floor`, its frame that of a register
write. -/
theorem divAcRegFloors : Obligations.DivAcRegFloors := by
  refine ⟨encodedAs_of_opcode rfl (fun _ => rfl) (fun _ => rfl), fun x s hgr => ?_⟩
  obtain ⟨hbelow, habove⟩ := divWords_floor s.ac hgr
  exact ⟨_, exec_divAcReg_nonzero x hgr, hbelow, habove, countInstr_writeReg_frame .ac _ s⟩

end Sys2Proof.Machine
end

section
/-! The execution stack: a push and the pop after it, a call and its return, and the ports of the execution_stack block
(10_state.md R33, R34, R42; 43_control.md R126). -/

namespace Sys2Proof.Machine

variable {s t : State}

theorem readReg_writeReg_same (r : Reg) (v : Word) (s : State) : (s.writeReg r v).readReg r = v := by
  cases r <;> rfl

/-- Only a push with room succeeds (10_state.md R33). -/
theorem push_eq_ok {v : Word} (h : push v s = .ok t) :
    t = { s with slot := Cells.write s.slot s.depth v, depth := s.depth + 1 } := by
  by_cases hfull : s.depth = Config.stackWords
  · exact nomatch (push_full v hfull).symm.trans h
  · exact (Except.ok.inj ((push_room v hfull).symm.trans h)).symm

/-- Settles O39: the pop is `popInto_empty` or `popInto_occupied`, and the slot it reads is the one the push filled. -/
theorem popGivesLastPushed : Obligations.PopGivesLastPushed := by
  refine ⟨fun r s => popInto_empty r, fun r v s t hwf hpush => ?_⟩
  obtain rfl := push_eq_ok hpush
  refine ⟨_, popInto_occupied r (Nat.succ_ne_zero s.depth), ?_, fun q hq => ?_, ?_⟩
  · rw [readReg_writeReg_same]
    exact Cells.read_write_same _ _ hwf
  · rw [readReg_writeReg_of_ne (List.ne_of_not_mem_cons hq)]
    cases q <;> rfl
  · cases r <;> exact ⟨rfl, rfl, rfl, ⟨rfl, rfl⟩, ⟨rfl, rfl, rfl, rfl⟩⟩

/-- Settles O20: the call's frame (`call_pushes_frame`) is still on top of the later stack, so its return restores the
caller (`return_restores_frame`). -/
theorem returnUndoesCall : Obligations.ReturnUndoesCall := by
  intro a x s t u hwf hframes hlt hexec hdepth hslots
  obtain ⟨htop, hothers⟩ := call_pushes_frame hwf (room_of_whole_frames hframes hlt) hexec
  have hfour := htop.depth
  have hlater : FrameOnTop s u :=
    { depth := hdepth.trans hfour
      pc := (hslots _ (by omega)).trans htop.pc
      ir := (hslots _ (by omega)).trans htop.ir
      ac := (hslots _ (by omega)).trans htop.ac
      gr := (hslots _ (by omega)).trans htop.gr }
  obtain ⟨v, hret, hregs, hback, hslot, hmem⟩ := return_restores_frame x hlater
  refine ⟨v, hret, hregs, hback, hmem, fun k hk => ?_⟩
  rw [hslot, hslots k (by omega), hothers k (.inl hk)]

/-! ## The execution_stack block -/

theorem slotsDown_eq_map (slot : Cells) (n : Nat) :
    slotsDown slot n = (List.range n).reverse.map fun k => (k, Cells.read slot k) := by
  induction n with
  | zero => rfl
  | succ n ih => rw [slotsDown, ih, List.range_succ, List.reverse_append]; rfl

/-- Settles O53: on the occupancies there are each output is its definition, the view `slotsDown_eq_map`, and a push
reads back by `Cells.read_write_same` and `Cells.read_write_other`. -/
theorem executionStackPorts : Obligations.ExecutionStackPorts := by
  intro slot depth inp hwf hle hone
  have hwords : Config.stackWords = 1024 := rfl
  refine ⟨Nat.mod_eq_of_lt (by omega), by simp [executionStack, hwords], by simp [executionStack],
    slotsDown_eq_map slot depth, fun hpush hroom => ?_, fun hpop hpos => ?_, fun hrefused => ?_⟩
  · have hfree : depth ≠ 1024 := Nat.ne_of_lt hroom
    simp only [executionStack, hwords, hpush, hfree, decide_false, Bool.and_false, Bool.not_false, Bool.and_true,
      if_true]
    exact ⟨trivial, Cells.read_write_same _ _ hwf, fun k hk => Cells.read_write_other _ _ hk⟩
  · have hpush : inp.pushEn = false := Bool.eq_false_iff.2 fun hpush => hone ⟨hpush, hpop⟩
    have hoccupied : depth ≠ 0 := Nat.ne_of_gt hpos
    simp [executionStack, hpush, hpop, hoccupied]
  · rcases hrefused with hoverflow | hunderflow | ⟨hpush, hpop⟩
    · obtain ⟨hpush, hfull⟩ : inp.pushEn = true ∧ depth = Config.stackWords := by
        simpa [executionStack] using hoverflow
      have hpop : inp.popEn = false := Bool.eq_false_iff.2 fun hpop => hone ⟨hpush, hpop⟩
      simp [executionStack, hpush, hpop, hfull]
    · obtain ⟨hpop, hempty⟩ : inp.popEn = true ∧ depth = 0 := by
        simpa [executionStack] using hunderflow
      have hpush : inp.pushEn = false := Bool.eq_false_iff.2 fun hpush => hone ⟨hpush, hpop⟩
      simp [executionStack, hpush, hpop, hempty]
    · simp [executionStack, hpush, hpop]

end Sys2Proof.Machine
end

section
/-! The step: what the fetch leaves, the faults before and in the handler, what counts, what other instructions leave
unchanged, and the snapshot (40_execution_cycle.md R90 to R97; 60_exceptions.md R133, R135; 43_control.md R125). -/

namespace Sys2Proof.Machine

variable {s t : State} {i : Instr}

/-- Settles O21: `step_of_nextIs` and `stepEmits_of_nextIs`; the fetch writes IR and PC only. -/
theorem stepRunsDecodedInstruction : Obligations.StepRunsDecodedInstruction := by
  intro s i hi
  have ⟨_, hpc, _⟩ := hi
  have hregs : SameRegsExcept [.ir, .pc] s (fetch s) := fun r hr => by
    cases r
    case ac | gr => rfl
    all_goals simp at hr
  exact ⟨step_of_nextIs hi, stepEmits_of_nextIs hi, fetchWord_eq hpc, fetch_pc_toNat hpc, hregs, rfl, ⟨rfl, rfl⟩,
    ⟨rfl, rfl⟩, ⟨rfl, rfl, rfl, rfl⟩⟩

/-! ## Faults -/

/-- Settles O23: the step is a fault entry from the state before the fetch (`step_out_of_range`). -/
theorem fetchOutOfRangeFaults : Obligations.FetchOutOfRangeFaults := by
  intro s hrun hpc
  have hbad : fetchOk s.pc = false := decide_eq_false (Nat.not_lt.2 hpc)
  obtain ⟨hregs, hmem, hstack, hcounts⟩ := faultEntry_frame .fetchOutOfRange s.pc s
  exact ⟨_, step_out_of_range hrun hbad, faultedWith_faultEntry .fetchOutOfRange s.pc s, rfl, hregs, hmem, hstack,
    hcounts, stepEmits_out_of_range hpc⟩

/-- Settles O27: the handler raises StackUnderflow (`exec_retFrmSubrout_empty`), and the snapshot is that of the state
after the fetch, whose view is empty. -/
theorem stackUnderflowFaults : Obligations.StackUnderflowFaults := by
  intro x s hi hempty
  have ⟨_, hpc, _⟩ := hi
  obtain ⟨t, hstep, hfault, hframe⟩ :=
    step_raised_after_fetch hi (exec_retFrmSubrout_empty (s := fetch s) x hempty)
  have hview : stackView (fetch s) = [] := congrArg (slotsDown s.slot) hempty
  exact ⟨t, hstep, hfault, hframe, _, stepEmits_of_nextIs hi, rfl, rfl, hview, rfl, fetchWord_eq hpc, rfl⟩

/-- Settles O32: a step faults in the fetch, in the decode or as `Effect.raised`, each by a fault entry on the state of
before or after the fetch; no other effect of `exec_effect` writes the record. -/
theorem faultEntryIsPrecise : Obligations.FaultEntryIsPrecise := by
  intro s t hframes hle hstep
  obtain ⟨hrun, ⟨-, rfl⟩ | ⟨hpc, -, rfl⟩ | ⟨i, ⟨-, hpc, -⟩, hexec⟩⟩ := step_cases hstep
  · exact ⟨fun _ => ⟨nofun, rfl, rfl, rfl, rfl, rfl, ⟨rfl, rfl⟩, ⟨rfl, rfl⟩, .inl ⟨rfl, rfl, rfl⟩⟩,
      fun h => absurd rfl h⟩
  · exact ⟨fun _ => ⟨nofun, rfl, rfl, rfl, rfl, rfl, ⟨rfl, rfl⟩, ⟨rfl, rfl⟩,
      .inr ⟨fetchWord_eq hpc, rfl, nofun⟩⟩, fun h => absurd rfl h⟩
  · have hwhole : WholeFrames (fetch s) := ⟨hframes, hle⟩
    cases exec_effect hwhole hexec with
    | raised hcause hfetch =>
      exact ⟨fun _ => ⟨hcause, pcOfCurrent_fetch s, rfl, rfl, rfl, rfl, ⟨rfl, rfl⟩, ⟨rfl, rfl⟩,
        .inr ⟨fetchWord_eq hpc, rfl, hfetch⟩⟩, fun h => absurd rfl h⟩
    | halt x => exact ⟨nofun, fun _ => ⟨rfl, rfl, rfl⟩⟩
    | registers | store | call | ret => exact ⟨fun h => (nomatch hrun.symm.trans h), fun _ => ⟨rfl, rfl, rfl⟩⟩

/-! ## What counts -/

/-- An instruction counts exactly when it does not fault, from any stack (40_execution_cycle.md R94, R95). -/
theorem exec_instrCount (hrun : s.runState = .running) (hexec : exec i s = .next t) :
    t.instrCount = if t.runState = .faulted then s.instrCount else s.instrCount + 1#32 := by
  rcases call_or_return_or_offStack i with ⟨a, rfl⟩ | ⟨x, rfl⟩ | hi
  · rw [exec, execJumpToSubrout] at hexec
    rcases jumpHandler_shape a s with ⟨sl, d, h⟩ | ⟨sl, d, h⟩
    all_goals
      rw [h] at hexec
      cases hexec
    · rfl
    · simp [hrun]
  · rw [exec, execRetFrmSubrout] at hexec
    obtain ⟨gr, ac, ir, pc, d, h | h⟩ := retHandler_shape s
    all_goals
      rw [h] at hexec
      cases hexec
    · rfl
    · simp [hrun]
  · cases exec_effect_of_offStack hi hexec with
    | raised => rfl
    | halt x => rfl
    | registers | store | call | ret => simp [hrun]

/-- Only RET_FRM_SUBROUT and HALT emit, and one snapshot each (40_execution_cycle.md R97). -/
theorem emits_cases (i : Instr) (s : State) : emits i s = [] ∨ ∃ kind, emits i s = [snapshotOf kind s] := by
  cases i
  case retFrmSubrout x => exact .inr ⟨.ret, rfl⟩
  case halt x => exact .inr ⟨.halt, rfl⟩
  all_goals exact .inl rfl

/-- An event of a step is its only one, the snapshot of the state after a fetch in range (43_control.md R125). -/
theorem stepEmits_of_mem {e : Snapshot} (hrun : s.runState = .running) (he : e ∈ stepEmits s) :
    s.pc.toNat < Config.memWords ∧ ∃ kind, e = snapshotOf kind (fetch s) ∧ stepEmits s = [e] := by
  obtain ⟨t, hstep⟩ := step_next_of_running hrun
  obtain ⟨-, ⟨hpc, -⟩ | ⟨hpc, ⟨o, ho⟩, -⟩ | ⟨i, hi, -⟩⟩ := step_cases hstep
  · rw [stepEmits_out_of_range hpc] at he
    exact nomatch he
  · rw [stepEmits_illegal hpc ho] at he
    exact nomatch he
  · have ⟨_, hpc, _⟩ := hi
    rw [stepEmits_of_nextIs hi] at he ⊢
    rcases emits_cases i (fetch s) with hnone | ⟨kind, hone⟩
    · rw [hnone] at he
      exact nomatch he
    · rw [hone] at he ⊢
      obtain rfl := List.mem_singleton.1 he
      exact ⟨hpc, kind, rfl, rfl⟩

/-- Settles O30: a fault before dispatch counts nothing, an instruction counts as `exec_instrCount` says, and a snapshot
is taken after the fetch, which counts nothing. -/
theorem instrCountRule : Obligations.InstrCountRule := by
  intro s t hrun hstep
  have hcount : t.instrCount = if t.runState = .faulted then s.instrCount else s.instrCount + 1#32 := by
    obtain ⟨-, ⟨-, rfl⟩ | ⟨-, -, rfl⟩ | ⟨i, -, hexec⟩⟩ := step_cases hstep
    · rfl
    · rfl
    · exact exec_instrCount (s := fetch s) hrun hexec
  refine ⟨fun hfault => hcount.trans (if_pos hfault), fun hdone => ?_, fun e he => ?_⟩
  · rw [hcount, if_neg hdone]
    exact BitVec.toNat_add s.instrCount 1#32
  · obtain ⟨-, kind, rfl, -⟩ := stepEmits_of_mem hrun he
    rfl

/-- Settles O41: the event is the snapshot of the state after the fetch (`stepEmits_of_mem`), field by field. -/
theorem snapshotShowsStateAfterFetch : Obligations.SnapshotShowsStateAfterFetch := by
  intro s e hrun he
  obtain ⟨hpc, kind, rfl, honly⟩ := stepEmits_of_mem hrun he
  refine ⟨honly, rfl, fetchWord_eq hpc, rfl, rfl, rfl, rfl, rfl, ?_, ?_⟩
  · rintro rfl
    rfl
  · rintro rfl
    rfl

/-! ## What other instructions leave unchanged -/

/-- Only a store writes memory, from any stack (10_state.md R28). -/
theorem exec_mem_of_not_store (hi : ∀ a, i ≠ .storeAcMem a) (hexec : exec i s = .next t) : t.mem = s.mem := by
  rcases call_or_return_or_offStack i with ⟨a, rfl⟩ | ⟨x, rfl⟩ | hoff
  · rw [exec, execJumpToSubrout] at hexec
    rcases jumpHandler_shape a s with ⟨sl, d, h⟩ | ⟨sl, d, h⟩
    all_goals
      rw [h] at hexec
      cases hexec
      rfl
  · rw [exec, execRetFrmSubrout] at hexec
    obtain ⟨gr, ac, ir, pc, d, h | h⟩ := retHandler_shape s
    all_goals
      rw [h] at hexec
      cases hexec
      rfl
  · cases exec_effect_of_offStack hoff hexec with
    | store a => exact absurd rfl (hi a)
    | registers | raised | call | ret | halt => rfl

/-- Of the host's operations other than `reset` only `load_word` writes memory, and only its cell
(70_reset_and_hazards.md R151). -/
theorem hostApply_read_mem {c : HostCommand} {b : Nat} (hreset : c ≠ .reset) (hload : ∀ v, c ≠ .loadWord b v) :
    Cells.read (hostApply c s).state.mem b = Cells.read s.mem b := by
  cases c with
  | reset => exact absurd rfl hreset
  | loadWord a v =>
    rw [hostApply, hostLoadWord]
    split
    case isTrue haccepted =>
      simp only [Bool.and_eq_true, addressInRange, decide_eq_true_eq] at haccepted
      obtain ⟨⟨-, ha⟩, -⟩ := haccepted
      have hcell : (BitVec.ofNat 12 a).toNat = a := Nat.mod_eq_of_lt ha
      refine Cells.read_write_other _ _ fun hb => ?_
      rw [hb, hcell] at hload
      exact hload v rfl
    case isFalse => rfl
  | setPc v =>
    rw [hostApply, hostSetPc]
    split <;> rfl
  | run =>
    rw [hostApply, hostRun]
    split <;> rfl

/-- Settles O33: `exec_mem_of_not_store` for a step, `Cells.read_write_other` for a store, `hostApply_read_mem` for the
host. -/
theorem onlyStoresWriteMemory : Obligations.OnlyStoresWriteMemory := by
  refine ⟨fun s t hstep hnone => ?_, fun a s t hstep hi b hb => ?_, fun c s b => hostApply_read_mem⟩
  · obtain ⟨-, ⟨-, rfl⟩ | ⟨-, -, rfl⟩ | ⟨i, hi, hexec⟩⟩ := step_cases hstep
    · rfl
    · rfl
    · exact exec_mem_of_not_store (s := fetch s) (fun a ha => hnone a (ha ▸ hi)) hexec
  · rw [step_of_nextIs hi] at hstep
    cases hstep
    exact Cells.read_write_other _ _ hb

/-- Settles O34: after the fetch, off the stack, no effect of `exec_effect_of_offStack` touches the stack or PC. -/
theorem onlyCallAndReturnMoveStackAndPc : Obligations.OnlyCallAndReturnMoveStackAndPc := by
  intro s t hstep hpc hcall hret
  obtain ⟨-, ⟨hbad, -⟩ | ⟨-, -, rfl⟩ | ⟨i, hi, hexec⟩⟩ := step_cases hstep
  · exact absurd hpc (Nat.not_lt.2 hbad)
  · exact ⟨⟨rfl, rfl⟩, rfl⟩
  · have hoff : OffStack i := ⟨fun a ha => hcall a (ha ▸ hi), fun x hx => hret x (hx ▸ hi)⟩
    cases exec_effect_of_offStack hoff hexec with
    | registers | store | raised | halt => exact ⟨⟨rfl, rfl⟩, rfl⟩
    | call a => exact absurd rfl (hoff.notCall a)
    | ret x => exact absurd rfl (hoff.notReturn x)

/-- Settles O35: the W entries of the register table are `exec_readReg_of_not_written`. -/
theorem unlistedRegistersUnwritten : Obligations.UnlistedRegistersUnwritten := fun _ _ _ _ hexec hwrite =>
  exec_readReg_of_not_written hwrite hexec

/-- Settles O36: of the rows of the register table without an R for AC or for GR none faults and none emits, and what
such an instruction writes does not depend on that register. -/
theorem unlistedRegistersUnread : Obligations.UnlistedRegistersUnread := by
  intro i s t r v hr hread hexec
  rcases hr with rfl | rfl
  · cases i
    case loadAcMem | loadAcReg | loadRegOperand =>
      cases hexec
      exact ⟨rfl, rfl⟩
    all_goals exact nomatch hread
  · cases i
    case loadAcMem | storeAcMem | storeAcReg | addAcMem | loadRegOperand =>
      cases hexec
      exact ⟨rfl, rfl⟩
    all_goals exact nomatch hread

/-- Settles O37: after the store PC names the stored cell, which reads back as AC (`Cells.read_write_same`). -/
theorem storeSeenByNextFetch : Obligations.StoreSeenByNextFetch := by
  intro a s i hwf hi hnext hdecode
  have ⟨hrun, hpc, _⟩ := hi
  have hpc' : (fetch s).pc.toNat = a.toNat := (fetch_pc_toNat hpc).trans hnext.symm
  have hcell : Cells.read (Cells.write s.mem a.toNat s.ac) (fetch s).pc.toNat = s.ac := by
    rw [hpc']
    exact Cells.read_write_same _ _ hwf
  exact ⟨_, (step_of_nextIs hi).trans (exec_storeAcMem _ a), hrun, hpc' ▸ addr_lt_memWords a,
    (congrArg decode hcell).trans hdecode⟩

end Sys2Proof.Machine
end

section
/-! Noninterference: no program can see the counters, the fault record or the Words of popped slots (10_state.md R34,
R52). -/

namespace Sys2Proof.Machine

variable {s t s' t' : State} {i : Instr}

/-- Two states that a program cannot tell apart, in one run state and, if FAULTED, with one fault record. -/
structure Alike (s t : State) : Prop extends SameForPrograms s t where
  runState : s.runState = t.runState
  record : s.runState = .faulted → s.faultCause = t.faultCause ∧ s.faultPc = t.faultPc ∧ s.faultIr = t.faultIr

theorem SameForPrograms.memRead (h : SameForPrograms s t) (a : Addr) : s.memRead a = t.memRead a := by
  rw [State.memRead, State.memRead, h.mem]

/-! ## The operations keep states alike -/

theorem SameForPrograms.fetch (h : SameForPrograms s t) : SameForPrograms (fetch s) (fetch t) where
  ac := h.ac
  ir := by rw [fetch_ir, fetch_ir, fetchWord, fetchWord, h.memRead, h.pc]
  pc := congrArg (· + 1#16) h.pc
  gr := h.gr
  mem := h.mem
  depth := h.depth
  slots := h.slots

theorem Alike.fetch (h : Alike s t) : Alike (fetch s) (fetch t) :=
  { h.toSameForPrograms.fetch with
    runState := h.runState
    record := h.record }

theorem SameForPrograms.faultEntry (h : SameForPrograms s t) (cause : FaultCause) {p q : Word} (hpc : p = q) :
    Alike (faultEntry cause p s) (faultEntry cause q t) :=
  { h with
    runState := rfl
    record := fun _ => ⟨rfl, hpc, h.ir⟩ }

/-- A condition that both raise at the same instruction leaves them alike. -/
theorem SameForPrograms.raised (h : SameForPrograms s t) (cause : FaultCause) :
    Alike (Machine.faultEntry cause (pcOfCurrent s) s) (Machine.faultEntry cause (pcOfCurrent t) t) :=
  h.faultEntry cause (congrArg (· - 1#16) h.pc)

theorem Alike.setAc (h : Alike s t) {v w : Word} (hv : v = w) : Alike (s.setAc v).countInstr (t.setAc w).countInstr :=
  { h with ac := hv }

theorem Alike.setGr (h : Alike s t) {v w : Word} (hv : v = w) : Alike (s.setGr v).countInstr (t.setGr w).countInstr :=
  { h with gr := hv }

theorem Alike.store (h : Alike s t) (a : Addr) :
    Alike (s.memWrite a s.ac).countInstr (t.memWrite a t.ac).countInstr :=
  { h with mem := by simp [h.mem, h.ac] }

theorem SameForPrograms.halt (h : SameForPrograms s t) :
    Alike (s.countInstr.setRunState .halted) (t.countInstr.setRunState .halted) :=
  { h with
    runState := rfl
    record := nofun }

/-- A frame of the one state's registers is a frame of the other's. -/
theorem SameForPrograms.frameOnTop (h : SameForPrograms s t) (hframe : FrameOnTop t t') : FrameOnTop s t' := by
  obtain ⟨hdepth, hpc, hir, hac, hgr⟩ := hframe
  rw [← h.depth] at hdepth hpc hir hac hgr
  exact ⟨hdepth, hpc.trans h.pc.symm, hir.trans h.ir.symm, hac.trans h.ac.symm, hgr.trans h.gr.symm⟩

/-- Both calls push the same frame onto the same occupied slots. -/
theorem Alike.call (h : Alike s t) {a : Addr} (hs : Slots.wf s.slot = true) (ht : Slots.wf t.slot = true)
    (hroom : s.depth + Config.frameWords ≤ Config.stackWords) (hexec : exec (.jumpToSubrout a) s = .next s')
    (hexec' : exec (.jumpToSubrout a) t = .next t') : Alike s' t' := by
  have hroom' : t.depth + Config.frameWords ≤ Config.stackWords := h.depth ▸ hroom
  obtain ⟨hframe, hothers⟩ := call_pushes_frame hs hroom hexec
  obtain ⟨hcallee, hothers'⟩ := call_pushes_frame ht hroom' hexec'
  have hframe' := h.frameOnTop hcallee
  have hslots : ∀ k, k < s'.depth → Cells.read s'.slot k = Cells.read t'.slot k := fun k hk => by
    rw [hframe.depth] at hk
    rcases Nat.lt_or_ge k s.depth with hold | hnew
    · rw [hothers k (.inl hold), hothers' k (.inl (h.depth ▸ hold)), h.slots k hold]
    · have hcell : k = s.depth ∨ k = s.depth + 1 ∨ k = s.depth + 2 ∨ k = s.depth + 3 := by omega
      rcases hcell with rfl | rfl | rfl | rfl
      · rw [hframe.pc, hframe'.pc]
      · rw [hframe.ir, hframe'.ir]
      · rw [hframe.ac, hframe'.ac]
      · rw [hframe.gr, hframe'.gr]
  rw [exec_jumpToSubrout_room a hroom] at hexec
  rw [exec_jumpToSubrout_room a hroom'] at hexec'
  cases hexec
  cases hexec'
  exact { h with pc := rfl, depth := congrArg (· + 4) h.depth, slots := hslots }

/-- Both returns restore the same frame. -/
theorem Alike.ret (h : Alike s t) {x : Addr} (hframe : Config.frameWords ≤ s.depth)
    (hexec : exec (.retFrmSubrout x) s = .next s') :
    ∃ t', exec (.retFrmSubrout x) t = .next t' ∧ Alike s' t' := by
  have hslot : ∀ k, 0 < k → Cells.read s.slot (s.depth - k) = Cells.read t.slot (t.depth - k) := fun k hk => by
    have hfour : Config.frameWords = 4 := rfl
    rw [← h.depth]
    exact h.slots _ (by omega)
  rw [exec_retFrmSubrout_frame x hframe] at hexec
  cases hexec
  exact ⟨_, exec_retFrmSubrout_frame x (h.depth ▸ hframe),
    { h with
      ac := hslot 2 (by decide)
      ir := hslot 3 (by decide)
      pc := hslot 4 (by decide)
      gr := hslot 1 (by decide)
      depth := congrArg (· - 4) h.depth
      slots := fun k hk => h.slots k (Nat.lt_of_lt_of_le hk (Nat.sub_le ..)) }⟩

/-- An instruction keeps states alike. -/
theorem exec_alike (h : Alike s t) (hframes : WholeFrames s) (hs : Slots.wf s.slot = true)
    (ht : Slots.wf t.slot = true) (hexec : exec i s = .next s') : ∃ t', exec i t = .next t' ∧ Alike s' t' := by
  cases i
  case storeAcMem a =>
    cases hexec
    exact ⟨_, rfl, h.store a⟩
  case storeAcReg | loadRegOperand =>
    cases hexec
    exact ⟨_, rfl, h.setGr (by simp only [h.ac])⟩
  case divAcReg x =>
    by_cases hgr : s.gr = 0#16
    · rw [exec_divAcReg_zero x hgr] at hexec
      cases hexec
      exact ⟨_, exec_divAcReg_zero x (h.gr ▸ hgr), h.raised _⟩
    · rw [exec_divAcReg_nonzero x hgr] at hexec
      cases hexec
      exact ⟨_, exec_divAcReg_nonzero x (h.gr ▸ hgr), h.setAc (by rw [h.ac, h.gr])⟩
  case jumpToSubrout a =>
    rcases hframes.full_or_room with hfull | hroom
    · rw [exec_jumpToSubrout_full a hfull] at hexec
      cases hexec
      exact ⟨_, exec_jumpToSubrout_full a (h.depth ▸ hfull), h.raised _⟩
    · have hexec' := exec_jumpToSubrout_room a (h.depth ▸ hroom)
      exact ⟨_, hexec', h.call hs ht hroom hexec hexec'⟩
  case retFrmSubrout x =>
    rcases hframes.empty_or_frame with hempty | hframe
    · rw [exec_retFrmSubrout_empty x hempty] at hexec
      cases hexec
      exact ⟨_, exec_retFrmSubrout_empty x (h.depth ▸ hempty), h.raised _⟩
    · exact h.ret hframe hexec
  case halt x =>
    cases hexec
    exact ⟨_, rfl, h.halt⟩
  all_goals
    cases hexec
    exact ⟨_, rfl, h.setAc (by simp only [h.ac, h.gr, h.memRead])⟩

/-! ## Snapshots -/

/-- A snapshot without what is read from the counters. -/
def Snapshot.withoutCounters (e : Snapshot) : Snapshot := { e with label := none, instrCount := 0#32 }

theorem slotsDown_congr {slot slot' : Cells} : ∀ {n : Nat},
    (∀ k, k < n → Cells.read slot k = Cells.read slot' k) → slotsDown slot n = slotsDown slot' n
  | 0, _ => rfl
  | n + 1, h => by
    rw [slotsDown, slotsDown, h n n.lt_succ_self, slotsDown_congr fun k hk => h k (hk.trans n.lt_succ_self)]

theorem SameForPrograms.snapshotOf (h : SameForPrograms s t) (kind : SnapshotKind) :
    (snapshotOf kind s).withoutCounters = (snapshotOf kind t).withoutCounters := by
  have hstack : stackView s = stackView t := by
    rw [stackView, stackView, ← h.depth]
    exact slotsDown_congr h.slots
  simp only [Snapshot.withoutCounters, Machine.snapshotOf, inspectWindow, h.pc, h.ir, h.ac, h.gr, h.mem, hstack]

theorem SameForPrograms.emits (h : SameForPrograms s t) (i : Instr) :
    (emits i s).map Snapshot.withoutCounters = (emits i t).map Snapshot.withoutCounters := by
  cases i
  case retFrmSubrout x => exact congrArg (fun e => [e]) (h.snapshotOf .ret)
  case halt x => exact congrArg (fun e => [e]) (h.snapshotOf .halt)
  all_goals rfl

/-- Settles O47: both fetches read the same Word, so both steps fault alike or run one instruction, which keeps the
states alike (`exec_alike`). -/
theorem statusAndStaleSlotsInvisible : Obligations.StatusAndStaleSlotsInvisible := by
  intro s t s' hs ht hrun hrun' hsame hstep
  suffices h : ∃ t', step t = .next t' ∧ Alike s' t' ∧
      (stepEmits s).map Snapshot.withoutCounters = (stepEmits t).map Snapshot.withoutCounters by
    obtain ⟨t', hstep', halike, hevents⟩ := h
    exact ⟨t', hstep', halike.toSameForPrograms, halike.runState, halike.record, hevents⟩
  have halike : Alike s t :=
    { hsame with
      runState := hrun.trans hrun'.symm
      record := fun h => nomatch hrun.symm.trans h }
  obtain ⟨-, ⟨hpc, rfl⟩ | ⟨hpc, ⟨o, ho⟩, rfl⟩ | ⟨i, hi, hexec⟩⟩ := step_cases hstep
  · have hbad : fetchOk t.pc = false := decide_eq_false (Nat.not_lt.2 (hsame.pc ▸ hpc))
    exact ⟨_, step_out_of_range hrun' hbad, hsame.faultEntry _ hsame.pc,
      by rw [stepEmits_out_of_range hpc, stepEmits_out_of_range (hsame.pc ▸ hpc)]⟩
  · have hpc' : t.pc.toNat < Config.memWords := hsame.pc ▸ hpc
    have ho' : decode (Cells.read t.mem t.pc.toNat) = .unrecognizedOpcode o := hsame.mem ▸ hsame.pc ▸ ho
    exact ⟨_, step_illegal hrun' hpc' ho', hsame.fetch.faultEntry _ hsame.pc,
      by rw [stepEmits_illegal hpc ho, stepEmits_illegal hpc' ho']⟩
  · have ⟨_, hpc, hdecode⟩ := hi
    have hi' : t.nextIs i := ⟨hrun', hsame.pc ▸ hpc, hsame.mem ▸ hsame.pc ▸ hdecode⟩
    obtain ⟨t', hexec', hnext⟩ := exec_alike halike.fetch hs.fetch.wholeFrames hs.slotsWf ht.slotsWf hexec
    refine ⟨t', (step_of_nextIs hi').trans hexec', hnext, ?_⟩
    rw [stepEmits_of_nextIs hi, stepEmits_of_nextIs hi']
    exact hsame.fetch.emits i

end Sys2Proof.Machine
end

section
/-! The datapath of the blocks is the step (10_state.md R41 to R47, log 12). -/

namespace Sys2Proof.Machine

variable {s : State} {i : Instr}

/-! ## The step of the blocks, by its stages -/

theorem datapathStep_out_of_range (hrun : s.runState = .running) (hpc : fetchOk s.pc = false) :
    datapathStep s = faultEntry .fetchOutOfRange s.pc s ∧ datapathEmits s = [] := by
  simp [datapathStep, datapathEmits, fetchUnit, hrun, hpc]

/-- What the requests of alu_dispatch for the Word in IR lead to: a fault entry, or all the requests taken. -/
def datapathTake (pc0 : Word) (s : State) : State :=
  match (datapathAlu s).fault with
  | some c => faultEntry c pc0 s
  | none => datapathApply (datapathAlu s) s

/-- The snapshots that alu_dispatch requests for the Word in IR. -/
def datapathShow (s : State) : List Snapshot := ((datapathAlu s).snapshot.map fun k => snapshotOf k s).toList

theorem datapathStep_in_range (hrun : s.runState = .running) (hpc : fetchOk s.pc = true) :
    datapathStep s = datapathTake s.pc (fetch s) ∧ datapathEmits s = datapathShow (fetch s) := by
  have hrange : (fetchUnit s.runState s.pc).fetchOutOfRange = false := by simp [fetchUnit, hpc]
  rw [datapathStep, datapathEmits, hrange, datapathFetch_in_range hrun hpc]
  exact ⟨rfl, rfl⟩

/-! ## alu_dispatch -/

/-- The decoder's outputs for the Word of an instruction (10_state.md R43). -/
theorem instructionDecoder_of_decode {w : Word} (h : decode w = .instr i) :
    instructionDecoder w = { opcode := i.opcode, address := i.operand, valid := true } := by
  obtain ⟨hopcode, hfield⟩ := (decode_eq_instr_iff w i).1 h
  rw [instructionDecoder, (validOpcode_iff_decode_instr w).2 ⟨i, h⟩, hopcode, hfield]

/-- The inputs of alu_dispatch when IR holds the Word of `i`. -/
def aluInOf (i : Instr) (s : State) : AluIn where
  opcode := i.opcode
  address := i.operand
  valid := true
  ac := s.ac
  gr := s.gr
  rdData := s.memRead i.operand
  popData := #v[popDataAfter 0 s, popDataAfter 1 s, popDataAfter 2 s, popDataAfter 3 s]
  depth := (stackPort .idle s).depth

theorem datapathAlu_of_decode (h : decode s.ir = .instr i) : datapathAlu s = aluDispatch (aluInOf i s) := by
  rw [datapathAlu, instructionDecoder_of_decode h]
  rfl

/-- On an illegal opcode alu_dispatch raises UnrecognizedOpcode and requests no snapshot (60_exceptions.md R129). -/
theorem datapathAlu_illegal {o : Opcode} (h : decode s.ir = .unrecognizedOpcode o) :
    datapathAlu s = .raised .unrecognizedOpcode := by
  have hinvalid : validOpcode (decodeOpcode s.ir) = false := Bool.eq_false_iff.2 fun hvalid => by
    obtain ⟨i, hi⟩ := (validOpcode_iff_decode_instr s.ir).1 hvalid
    exact nomatch hi.symm.trans h
  simp [datapathAlu, aluDispatch, instructionDecoder, hinvalid]

/-! ## What the requests lead to -/

theorem datapath_raised {cause : FaultCause} {o : AluOut} (ho : datapathAlu s = o) (hfault : o.fault = some cause)
    (pc0 : Word) : datapathTake pc0 s = faultEntry cause pc0 s := by
  rw [datapathTake, ho, hfault]

theorem datapath_completed {o : AluOut} (ho : datapathAlu s = o) (hfault : o.fault = none) (pc0 : Word) :
    datapathTake pc0 s = datapathApply o s := by
  rw [datapathTake, ho, hfault]

theorem datapath_store {a : Addr} (h : decode s.ir = .instr (.storeAcMem a)) :
    exec (.storeAcMem a) s = .next (datapathTake (pcOfCurrent s) s) ∧ datapathShow s = [] := by
  have halu := datapathAlu_of_decode h
  rw [datapath_completed halu rfl, datapathApply, datapathShow, halu, instructionDecoder_of_decode h]
  exact ⟨rfl, rfl⟩

theorem datapath_division {x : Addr} (h : decode s.ir = .instr (.divAcReg x)) :
    exec (.divAcReg x) s = .next (datapathTake (pcOfCurrent s) s) ∧ datapathShow s = [] := by
  by_cases hgr : s.gr = 0#16
  · have halu : datapathAlu s = .raised .divisionByZero := (datapathAlu_of_decode h).trans (if_pos hgr)
    rw [exec_divAcReg_zero x hgr, datapath_raised halu rfl, datapathShow, halu]
    exact ⟨rfl, rfl⟩
  · have halu := (datapathAlu_of_decode h).trans (if_neg hgr)
    rw [exec_divAcReg_nonzero x hgr, datapath_completed halu rfl, datapathShow, halu]
    exact ⟨rfl, rfl⟩

/-- The four pushes go through the one push port (`pushPort_frame`). -/
theorem datapath_call {a : Addr} (h : decode s.ir = .instr (.jumpToSubrout a)) (hframes : WholeFrames s) :
    exec (.jumpToSubrout a) s = .next (datapathTake (pcOfCurrent s) s) ∧ datapathShow s = [] := by
  have hdepth := stackPort_depth .idle hframes.depthLe
  rcases hframes.full_or_room with hfull | hroom
  · have halu : datapathAlu s = .raised .stackOverflow :=
      (datapathAlu_of_decode h).trans (if_pos (hdepth.trans hfull))
    rw [exec_jumpToSubrout_full a hfull, datapath_raised halu rfl, datapathShow, halu]
    exact ⟨rfl, rfl⟩
  · have hfull : ¬ (stackPort .idle s).depth.toNat = Config.stackWords := by
      simp only [Config.frameWords] at hroom
      omega
    have halu : datapathAlu s =
        { AluOut.completed with pushes := [.pc, .ir, .ac, .gr], pcSource := .target a, countCall := true } :=
      (datapathAlu_of_decode h).trans (if_neg hfull)
    rw [exec_jumpToSubrout_room a hroom, datapath_completed halu rfl, datapathShow, halu, datapathApply,
      pushPort_frame hroom]
    exact ⟨rfl, rfl⟩

/-- The four pops go through the one pop port (`popPort_occupied`, `popDataAfter_occupied`). -/
theorem datapath_ret {x : Addr} (h : decode s.ir = .instr (.retFrmSubrout x)) (hframes : WholeFrames s) :
    exec (.retFrmSubrout x) s = .next (datapathTake (pcOfCurrent s) s) ∧ datapathShow s = [snapshotOf .ret s] := by
  have hdepth := stackPort_depth .idle hframes.depthLe
  rcases hframes.empty_or_frame with hempty | hframe
  · have halu : datapathAlu s = { AluOut.raised .stackUnderflow with snapshot := some .ret } :=
      (datapathAlu_of_decode h).trans (if_pos (hdepth.trans hempty))
    rw [exec_retFrmSubrout_empty x hempty, datapath_raised halu rfl, datapathShow, halu]
    exact ⟨rfl, rfl⟩
  · have hfour : 4 ≤ s.depth := hframe
    have hoccupied : ¬ (stackPort .idle s).depth.toNat = 0 := by omega
    have halu : datapathAlu s =
        { AluOut.completed with
          snapshot := some .ret, pops := Config.frameWords
          grWrite := some (popDataAfter 0 s), acWrite := some (popDataAfter 1 s), irWrite := some (popDataAfter 2 s)
          pcSource := .popped (popDataAfter 3 s) } :=
      (datapathAlu_of_decode h).trans (if_neg hoccupied)
    have hpops : popPort Config.frameWords s = { s with depth := s.depth - 4 } := popPort_occupied 4 hfour
    rw [exec_retFrmSubrout_frame x hframe, datapath_completed halu rfl, datapathShow, halu, datapathApply]
    simp only [AluOut.completed, List.foldl_nil, hpops, popDataAfter_occupied (show 0 ≤ s.depth by omega),
      popDataAfter_occupied (show 1 ≤ s.depth by omega), popDataAfter_occupied (show 2 ≤ s.depth by omega),
      popDataAfter_occupied (show 3 ≤ s.depth by omega)]
    exact ⟨rfl, rfl⟩

/-- The blocks do with the Word in IR what the instruction does. -/
theorem datapath_exec (h : decode s.ir = .instr i) (hframes : WholeFrames s) :
    exec i s = .next (datapathTake (pcOfCurrent s) s) ∧ datapathShow s = emits i s := by
  cases i
  case storeAcMem a => exact datapath_store h
  case divAcReg x => exact datapath_division h
  case jumpToSubrout a => exact datapath_call h hframes
  case retFrmSubrout x => exact datapath_ret h hframes
  all_goals
    have halu := datapathAlu_of_decode h
    rw [datapath_completed halu rfl, datapathShow, halu]
    exact ⟨rfl, rfl⟩

/-- Settles O48: both fault alike before dispatch, and on an instruction the requests of alu_dispatch do what `exec`
does (`datapath_exec`). -/
theorem datapathIsStep : Obligations.DatapathIsStep := by
  intro s hinv hrun
  obtain ⟨t, hstep⟩ := step_next_of_running hrun
  obtain ⟨-, ⟨hpc, rfl⟩ | ⟨hpc, ⟨o, ho⟩, rfl⟩ | ⟨i, hi, hexec⟩⟩ := step_cases hstep
  · obtain ⟨hnext, hquiet⟩ := datapathStep_out_of_range hrun (decide_eq_false (Nat.not_lt.2 hpc))
    rw [hstep, hnext, hquiet, stepEmits_out_of_range hpc]
    exact ⟨rfl, rfl⟩
  · obtain ⟨hnext, hshow⟩ := datapathStep_in_range hrun ((fetchOk_iff s.pc).2 hpc)
    have halu := datapathAlu_illegal (s := fetch s) ((congrArg decode (fetchWord_eq hpc)).trans ho)
    rw [hstep, hnext, hshow, stepEmits_illegal hpc ho, datapath_raised halu rfl, datapathShow, halu]
    exact ⟨rfl, rfl⟩
  · have ⟨_, hpc, hdecode⟩ := hi
    obtain ⟨hnext, hshow⟩ := datapathStep_in_range hrun ((fetchOk_iff s.pc).2 hpc)
    have hword : decode (fetch s).ir = .instr i := (congrArg decode (fetchWord_eq hpc)).trans hdecode
    obtain ⟨hsame, hevents⟩ := datapath_exec hword hinv.fetch.wholeFrames
    rw [pcOfCurrent_fetch] at hsame
    rw [step_of_nextIs hi, stepEmits_of_nextIs hi, hnext, hshow, hevents]
    exact ⟨hsame, rfl⟩

end Sys2Proof.Machine
end

section
/-! Reset and the host's operations (10_state.md R49; 70_reset_and_hazards.md R148 to R156). -/

namespace Sys2Proof.Machine

variable {s : State}

/-- Settles O49: `reset` answers `State.reset` in every state, each field by its definition. -/
theorem resetGivesTable : Obligations.ResetGivesTable := by
  rintro s t rfl
  exact ⟨rfl, rfl, rfl, rfl, rfl, fun _ => rfl, fun _ => rfl, rfl, rfl, rfl, rfl, rfl, rfl, rfl⟩

theorem hostLoadWord_accepted {a v : Nat} (hidle : s.runState = .idle) (ha : a ≤ 0xFFF) (hv : v ≤ 0xFFFF) :
    hostLoadWord a v s = ⟨{ s with mem := Cells.write s.mem a (BitVec.ofNat 16 v) }, true⟩ := by
  have hrange : (s.runState = .idle && addressInRange a && wordInRange v) = true := by
    simp [hidle, addressInRange, wordInRange]
    omega
  have hcell : (BitVec.ofNat 12 a).toNat = a := by
    rw [BitVec.toNat_ofNat]
    omega
  rw [hostLoadWord, if_pos hrange, State.memWrite, hcell]

theorem hostLoadWord_refused {a v : Nat} (h : s.runState ≠ .idle ∨ 0xFFF < a ∨ 0xFFFF < v) :
    hostLoadWord a v s = ⟨s, false⟩ := by
  refine if_neg fun hrange => ?_
  simp only [Bool.and_eq_true, decide_eq_true_eq, addressInRange, wordInRange] at hrange
  obtain ⟨⟨hidle, ha⟩, hv⟩ := hrange
  rcases h with hbusy | hbad | hbad
  · exact hbusy hidle
  · omega
  · omega

/-- A Word in range that was written reads back as the number it was given as. -/
theorem read_write_ofNat {m : Cells} (hwf : Memory.wf m = true) (a : Nat) {v : Nat} (hv : v ≤ 0xFFFF) :
    (Cells.read (Cells.write m a (BitVec.ofNat 16 v)) a).toNat = v := by
  rw [Cells.read_write_same a _ hwf, BitVec.toNat_ofNat]
  omega

/-- Settles O50: in IDLE each operation is its one update (`hostLoadWord_accepted` for `load_word` in range); outside
IDLE, or out of range (`hostLoadWord_refused`), the state is given back. -/
theorem hostOperationsOnlyInIdle : Obligations.HostOperationsOnlyInIdle := by
  refine ⟨fun a v s hwf hidle ha hv => ?_, fun a v s => hostLoadWord_refused, fun v s hidle => if_pos hidle,
    fun s hidle => if_pos hidle, fun v s hbusy => ⟨if_neg hbusy, if_neg hbusy⟩⟩
  rw [hostLoadWord_accepted hidle ha hv]
  exact ⟨rfl, read_write_ofNat hwf a hv, fun b hb => Cells.read_write_other _ _ hb, fun _ _ => rfl, ⟨rfl, rfl⟩,
    ⟨rfl, rfl, rfl, rfl⟩, ⟨rfl, rfl⟩⟩

/-! ## The boot order -/

/-- Loading an image right after reset changes memory alone, and each cell holds the last Word loaded there, or zero
(70_reset_and_hazards.md R156). -/
theorem hostApplyAll_loads (image : List (Nat × Nat)) (h : ∀ p ∈ image, p.1 ≤ 0xFFF ∧ p.2 ≤ 0xFFFF) :
    ∃ m, hostApplyAll (image.map fun p => .loadWord p.1 p.2) State.reset = { State.reset with mem := m } ∧
      Memory.wf m = true ∧ ∀ a, (Cells.read m a).toNat = (image.reverse.lookup a).getD 0 := by
  induction image using List.reverseRecOn with
  | nil => exact ⟨[], rfl, rfl, fun _ => rfl⟩
  | append_singleton image p ih =>
    obtain ⟨m, hloads, hwf, hread⟩ := ih fun q hq => h q (List.mem_append_left _ hq)
    obtain ⟨ha, hv⟩ := h p (List.mem_append_right _ (List.mem_singleton_self p))
    refine ⟨Cells.write m p.1 (BitVec.ofNat 16 p.2), ?_, Cells.wf_write _ hwf (Nat.lt_succ_of_le ha), fun a => ?_⟩
    · rw [List.map_append, hostApplyAll_append, hloads]
      exact congrArg HostReply.state (hostLoadWord_accepted rfl ha hv)
    · rw [List.reverse_append, List.reverse_singleton, List.singleton_append, List.lookup_cons]
      by_cases hcell : a = p.1
      · rw [hcell, read_write_ofNat hwf p.1 hv, beq_self_eq_true]
        rfl
      · rw [Cells.read_write_other _ _ hcell, hread, beq_false_of_ne hcell]

/-- Settles O51: `reset` forgets the state, `hostApplyAll_loads` gives the memory, and `set_pc` and `run()` leave it. -/
theorem bootLoadsImage : Obligations.BootLoadsImage := by
  rintro image entry s t himage rfl
  obtain ⟨m, hloads, -, hread⟩ := hostApplyAll_loads image himage
  have hboot : hostApplyAll (bootCommands image entry) s =
      { State.reset with mem := m, pc := entry, runState := .running } := by
    rw [bootCommands, List.cons_append, hostApplyAll, hostApplyAll_append]
    exact congrArg (hostApplyAll [.setPc entry, .run]) hloads
  rw [hboot]
  exact ⟨rfl, rfl, rfl, rfl, rfl, hread⟩

end Sys2Proof.Machine
end
